-- ==== Sys2Proof/Word.lean ====
section
/-! DEFINITION. The two word types of the core: a byte (spec/00_scope.md R8, `XLEN` of R6) and an address (`ALEN` of R6). -/

namespace Sys2Proof

/-- A byte: 8 bits, values 0 to 255 (R8). -/
abbrev Byte := BitVec 8

/-- An address: 16 bits, values 0 to 65535 (R8). Sums of addresses wrap modulo 65536 (R43). -/
abbrev Addr := BitVec 16

end Sys2Proof
end

