-- ==== Sys2Proof/Config.lean ====
section
/-! DEFINITION. The configuration of the core: what is fixed for one core and is no state (spec/10_state.md R34), the names its three opcode tables map to, and the functions the spec leaves open. -/

namespace Sys2Proof

/-- `PROFILE` (R7): the reference behaviour or the architecturally corrected one, chosen once, at the four places R7 lists and at all four together. -/
inductive Profile where
  | reference
  | corrected
  deriving DecidableEq, Repr

/-- The thirteen operations (R3); the values of `OPTABLE`. -/
inductive Operation where
  /-- add with carry (R131) -/
  | adc
  /-- bitwise AND (R132) -/
  | and
  /-- arithmetic shift left (R133) -/
  | asl
  /-- bit test (R134) -/
  | bit
  /-- no-operation (R135) -/
  | nop
  /-- branch if carry clear (R172) -/
  | bcc
  /-- branch if carry set (R173) -/
  | bcs
  /-- branch if zero (R174) -/
  | beq
  /-- branch if not zero (R175) -/
  | bne
  /-- branch if negative (R176) -/
  | bmi
  /-- branch if not negative (R177) -/
  | bpl
  /-- branch if overflow clear (R178) -/
  | bvc
  /-- branch if overflow set (R179) -/
  | bvs
  deriving DecidableEq, Repr

/-- The twelve addressing modes (R14, R115); the values of `MODETABLE`. -/
inductive Mode where
  /-- implied (R102) -/
  | imp
  /-- accumulator (R103) -/
  | acc
  /-- immediate (R104) -/
  | imm
  /-- zero-page (R105) -/
  | zp
  /-- zero-page,X (R106) -/
  | zpx
  /-- zero-page,Y (R107) -/
  | zpy
  /-- absolute (R108) -/
  | abs
  /-- absolute,X (R109) -/
  | abx
  /-- absolute,Y (R110) -/
  | aby
  /-- indirect,X (R111) -/
  | inx
  /-- indirect,Y (R112) -/
  | iny
  /-- relative (R113) -/
  | rel
  deriving DecidableEq, Repr

/-- The two modes whose arithmetic the spec leaves open under `REFERENCE` (R111, R112). -/
inductive IndirectMode where
  | inx
  | iny
  deriving DecidableEq, Repr

/-- A timing entry: base cost and page-crossing penalty, two natural numbers (R190). -/
structure Timing where
  base : Nat
  pen : Nat
  deriving DecidableEq, Repr

/-- The configuration of one core (R6, R34). A table is a list of (opcode, entry) pairs; an opcode that no pair names is absent from it (R6: "partial functions from a byte"; log 20). -/
structure Config where
  /-- `PROFILE` (R7) -/
  profile : Profile
  /-- `ASL_CARRY_BIT` (R133): which bit of the old accumulator the shift copies into carry -/
  aslCarryBit : Fin 8
  /-- `ENTRY` (R6, R230): the program counter after reset -/
  entry : Addr
  /-- `FLAGS_RESET` (R6, R232): the flags register after reset -/
  flagsReset : Byte
  /-- `OPTABLE` (R34) -/
  opTable : List (Byte × Operation)
  /-- `MODETABLE` (R34) -/
  modeTable : List (Byte × Mode)
  /-- `TIMETABLE` (R34, R190) -/
  timeTable : List (Byte × Timing)
  deriving DecidableEq, Repr

/-- FREE VALUE (log 5). `INDIRECT_REF` (R6, R111, R112): the operand that the indirect modes yield under `PROFILE = REFERENCE`, a function of the mode, the operand byte, the index register and the bytes of memory, of which nothing else may be assumed. -/
opaque Config.indirectRef : IndirectMode → Byte → Byte → (Addr → Byte) → Byte

/-- FREE VALUE (log 6). The addresses the indirect modes read under `PROFILE = REFERENCE` beyond the instruction's own bytes: "an unspecified set" (R58). No state depends on it, since reads have no side effect (R47). -/
opaque Config.indirectRefReads : IndirectMode → Byte → Byte → (Addr → Byte) → List Addr

end Sys2Proof
end

