-- ==== Sys2Proof/Syntax.lean ====
section
/-! DEFINITION. The instructions: one constructor per row of spec/opcode_table.json (spec/30_encoding.md R64), with the operand its bytes assemble to (R63). -/

namespace Sys2Proof

/-- The 32 forms. `m` is an immediate datum or a raw displacement byte, `b0` a zero-page address byte, `addr` the 16-bit address of the absolute modes (R63). -/
inductive Instr where
  /-- `ADC #$nn`, opcode 0x69 (R140) -/
  | adcImm (m : Byte)
  /-- `ADC $nn`, opcode 0x65 (R141) -/
  | adcZp (b0 : Byte)
  /-- `ADC $nn,X`, opcode 0x75 (R142) -/
  | adcZpx (b0 : Byte)
  /-- `ADC $hhll`, opcode 0x6D (R143) -/
  | adcAbs (addr : Addr)
  /-- `ADC $hhll,X`, opcode 0x7D (R144) -/
  | adcAbx (addr : Addr)
  /-- `ADC $hhll,Y`, opcode 0x79 (R145) -/
  | adcAby (addr : Addr)
  /-- `ADC ($nn,X)`, opcode 0x61 (R146) -/
  | adcInx (b0 : Byte)
  /-- `ADC ($nn),Y`, opcode 0x71 (R147) -/
  | adcIny (b0 : Byte)
  /-- `AND #$nn`, opcode 0x29 (R148) -/
  | andImm (m : Byte)
  /-- `AND $nn`, opcode 0x25 (R149) -/
  | andZp (b0 : Byte)
  /-- `AND $nn,X`, opcode 0x35 (R150) -/
  | andZpx (b0 : Byte)
  /-- `AND $hhll`, opcode 0x2D (R151) -/
  | andAbs (addr : Addr)
  /-- `AND $hhll,X`, opcode 0x3D (R152) -/
  | andAbx (addr : Addr)
  /-- `AND $hhll,Y`, opcode 0x39 (R153) -/
  | andAby (addr : Addr)
  /-- `AND ($nn,X)`, opcode 0x21 (R154) -/
  | andInx (b0 : Byte)
  /-- `AND ($nn),Y`, opcode 0x31 (R155) -/
  | andIny (b0 : Byte)
  /-- `ASL A`, opcode 0x0A (R156) -/
  | aslAcc
  /-- `ASL $nn`, opcode 0x06 (R157) -/
  | aslZp (b0 : Byte)
  /-- `ASL $nn,X`, opcode 0x16 (R158) -/
  | aslZpx (b0 : Byte)
  /-- `ASL $hhll`, opcode 0x0E (R159) -/
  | aslAbs (addr : Addr)
  /-- `ASL $hhll,X`, opcode 0x1E (R160) -/
  | aslAbx (addr : Addr)
  /-- `BIT $nn`, opcode 0x24 (R161) -/
  | bitZp (b0 : Byte)
  /-- `BIT $hhll`, opcode 0x2C (R162) -/
  | bitAbs (addr : Addr)
  /-- `NOP`, opcode 0xEA (R163) -/
  | nop
  /-- `BCC rel`, opcode 0x90 (R172) -/
  | bcc (m : Byte)
  /-- `BCS rel`, opcode 0xB0 (R173) -/
  | bcs (m : Byte)
  /-- `BEQ rel`, opcode 0xF0 (R174) -/
  | beq (m : Byte)
  /-- `BNE rel`, opcode 0xD0 (R175) -/
  | bne (m : Byte)
  /-- `BMI rel`, opcode 0x30 (R176) -/
  | bmi (m : Byte)
  /-- `BPL rel`, opcode 0x10 (R177) -/
  | bpl (m : Byte)
  /-- `BVC rel`, opcode 0x50 (R178) -/
  | bvc (m : Byte)
  /-- `BVS rel`, opcode 0x70 (R179) -/
  | bvs (m : Byte)
  deriving DecidableEq, Repr

end Sys2Proof
end

