-- ==== Sys2Proof/WellFormed.lean ====
section
/-! DEFINITION. What is well formed: an instruction always (spec/30_encoding.md R62, R67), a configuration when it meets the constraints the spec puts on its parameters (R65, R232, U15 of spec/93_implementation_defined.md). -/

namespace Sys2Proof

/-- Every instruction is well formed: "every value of every operand byte is legal" (R62) and the operand fields have exactly the width of those bytes, so there is nothing to check. -/
def Instr.wellFormed (_ : Instr) : Bool := true

/-- The opcodes a table names. -/
def Config.domain {α : Type} (table : List (Byte × α)) : List Byte := table.map Prod.fst

/-- R65: "every opcode that appears in the operation table must also appear in the addressing-mode table and the timing table". -/
def Config.tablesComplete (c : Config) : Bool :=
  (Config.domain c.opTable).all fun op =>
    (Config.domain c.modeTable).contains op && (Config.domain c.timeTable).contains op

/-- Whether the handler of an operation needs a byte (R131, R132, R134, R171); shift and no-operation ignore theirs (R133, R135). -/
def Operation.needsOperand : Operation → Bool
  | .asl | .nop => false
  | .adc | .and | .bit | .bcc | .bcs | .beq | .bne | .bmi | .bpl | .bvc | .bvs => true

/-- U15: no table pairs the implied mode, which yields no value, with an operation that needs one. -/
def Config.operandsSupplied (c : Config) : Bool :=
  c.opTable.all fun row => !(row.2.needsOperand && (c.modeTable.lookup row.1 == some Mode.imp))

/-- R232: `FLAGS_RESET` has the four defined flags, bits 0, 1, 6 and 7, clear. -/
def Config.flagsResetClear (c : Config) : Bool := c.flagsReset &&& 0xC3#8 == 0#8

/-- A configuration the spec allows. -/
def Config.wellFormed (c : Config) : Bool :=
  c.tablesComplete && c.operandsSupplied && c.flagsResetClear

end Sys2Proof
end

