-- ==== Sys2Proof/Decode.lean ====
section
/-! DEFINITION. Decoding and encoding (spec/30_encoding.md). An instruction is its opcode byte, at the lowest address, then the 0, 1 or 2 operand bytes of its mode (R60, R61); the opcode byte is decoded as a whole (R62). -/

namespace Sys2Proof

/-- The 16-bit value of a low and a high byte (R44: `{hi, lo}`). -/
def joinBytes (hi lo : Byte) : Addr := hi ++ lo

/-- Bits 7:0 of an address. -/
def lowByte (a : Addr) : Byte := a.extractLsb' 0 8

/-- Bits 15:8 of an address: its page (R8). -/
def highByte (a : Addr) : Byte := a.extractLsb' 8 8

/-- An instruction short of its operand bytes: one constructor per format of R61. -/
inductive Template where
  /-- format `F0`: no operand byte -/
  | bare (i : Instr)
  /-- format `F1`: one operand byte -/
  | one (f : Byte → Instr)
  /-- format `F2`: the low and the high byte of an address -/
  | two (f : Addr → Instr)

/-- The opcode map of R64. A byte that is not listed is illegal (R66). -/
def templateOf (op : Byte) : Option Template :=
  match op.toNat with
  | 0x69 => some (.one .adcImm)
  | 0x65 => some (.one .adcZp)
  | 0x75 => some (.one .adcZpx)
  | 0x6D => some (.two .adcAbs)
  | 0x7D => some (.two .adcAbx)
  | 0x79 => some (.two .adcAby)
  | 0x61 => some (.one .adcInx)
  | 0x71 => some (.one .adcIny)
  | 0x29 => some (.one .andImm)
  | 0x25 => some (.one .andZp)
  | 0x35 => some (.one .andZpx)
  | 0x2D => some (.two .andAbs)
  | 0x3D => some (.two .andAbx)
  | 0x39 => some (.two .andAby)
  | 0x21 => some (.one .andInx)
  | 0x31 => some (.one .andIny)
  | 0x0A => some (.bare .aslAcc)
  | 0x06 => some (.one .aslZp)
  | 0x16 => some (.one .aslZpx)
  | 0x0E => some (.two .aslAbs)
  | 0x1E => some (.two .aslAbx)
  | 0x24 => some (.one .bitZp)
  | 0x2C => some (.two .bitAbs)
  | 0xEA => some (.bare .nop)
  | 0x90 => some (.one .bcc)
  | 0xB0 => some (.one .bcs)
  | 0xF0 => some (.one .beq)
  | 0xD0 => some (.one .bne)
  | 0x30 => some (.one .bmi)
  | 0x10 => some (.one .bpl)
  | 0x50 => some (.one .bvc)
  | 0x70 => some (.one .bvs)
  | _ => none

/-- Why bytes are no instruction. -/
inductive DecodeRefusal where
  /-- there is no byte at all -/
  | noOpcode
  /-- the opcode byte is in no row of the table (R66) -/
  | illegalOpcode (op : Byte)
  /-- the bytes end before the operand bytes of the opcode do -/
  | truncated (op : Byte)
  deriving DecidableEq, Repr

/-- What decoding gives: an instruction and the bytes after it, or a refusal by name. -/
inductive Decoded where
  | instr (i : Instr) (rest : List Byte)
  | refused (r : DecodeRefusal)
  deriving DecidableEq, Repr

/-- Fill a template from the bytes that follow the opcode, low address first (R63). -/
def fillTemplate (op : Byte) : Template → List Byte → Decoded
  | .bare i, rest => .instr i rest
  | .one f, b0 :: rest => .instr (f b0) rest
  | .two f, b0 :: b1 :: rest => .instr (f (joinBytes b1 b0)) rest
  | .one _, [] => .refused (.truncated op)
  | .two _, [] => .refused (.truncated op)
  | .two _, [_] => .refused (.truncated op)

/-- The decoder, total on any bytes. -/
def decode : List Byte → Decoded
  | [] => .refused .noOpcode
  | op :: rest =>
    match templateOf op with
    | none => .refused (.illegalOpcode op)
    | some t => fillTemplate op t rest

/-- The bytes of an instruction, from the encoding lines of R140 to R163 and R172 to R179. -/
def encode : Instr → List Byte
  | .adcImm m => [0x69#8, m]
  | .adcZp b0 => [0x65#8, b0]
  | .adcZpx b0 => [0x75#8, b0]
  | .adcAbs addr => [0x6D#8, lowByte addr, highByte addr]
  | .adcAbx addr => [0x7D#8, lowByte addr, highByte addr]
  | .adcAby addr => [0x79#8, lowByte addr, highByte addr]
  | .adcInx b0 => [0x61#8, b0]
  | .adcIny b0 => [0x71#8, b0]
  | .andImm m => [0x29#8, m]
  | .andZp b0 => [0x25#8, b0]
  | .andZpx b0 => [0x35#8, b0]
  | .andAbs addr => [0x2D#8, lowByte addr, highByte addr]
  | .andAbx addr => [0x3D#8, lowByte addr, highByte addr]
  | .andAby addr => [0x39#8, lowByte addr, highByte addr]
  | .andInx b0 => [0x21#8, b0]
  | .andIny b0 => [0x31#8, b0]
  | .aslAcc => [0x0A#8]
  | .aslZp b0 => [0x06#8, b0]
  | .aslZpx b0 => [0x16#8, b0]
  | .aslAbs addr => [0x0E#8, lowByte addr, highByte addr]
  | .aslAbx addr => [0x1E#8, lowByte addr, highByte addr]
  | .bitZp b0 => [0x24#8, b0]
  | .bitAbs addr => [0x2C#8, lowByte addr, highByte addr]
  | .nop => [0xEA#8]
  | .bcc m => [0x90#8, m]
  | .bcs m => [0xB0#8, m]
  | .beq m => [0xF0#8, m]
  | .bne m => [0xD0#8, m]
  | .bmi m => [0x30#8, m]
  | .bpl m => [0x10#8, m]
  | .bvc m => [0x50#8, m]
  | .bvs m => [0x70#8, m]

/-- The bytes of a number that holds `nbits` bits of an instruction, first byte least significant, three bytes in all (the longest instruction, R60); bits above `nbits` are 0. -/
def tableBytes (nbits w : Nat) : List Byte :=
  let v := w % 2 ^ nbits
  [BitVec.ofNat 8 v, BitVec.ofNat 8 (v / 256), BitVec.ofNat 8 (v / 65536)]

/-- The instruction the decoder reads from an instruction whose bits are `w`, numbered as spec/opcode_table.json numbers them. -/
def decodeTableWord (nbits w : Nat) : Option Instr :=
  match decode (tableBytes nbits w) with
  | .instr i _ => some i
  | .refused _ => none

end Sys2Proof
end

