-- ==== Sys2Proof/Machine/Params.lean ====
section
/-! DEFINITION. The values this core takes for the parameters that spec/00_scope.md R6 leaves to the model, and the constants no rule reads. -/

namespace Sys2Proof.Machine.Params

/-- `PROFILE` (R7), `REFERENCE` by decision D1. DESIGN CHOICE of the spec, unsafe (log 1). -/
def profile : Profile := .reference

/-- `ASL_CARRY_BIT` (R133), 0 by decision D21. DESIGN CHOICE of the spec, unsafe (log 12). -/
def aslCarryBit : Fin 8 := 0

/-- `ENTRY` (R6, R230), which the spec leaves open. DESIGN CHOICE, unsafe (log 2). -/
def entry : Addr := 0x0600#16

/-- `FLAGS_RESET` (R6, R232), of which the spec fixes bits 0, 1, 6 and 7. DESIGN CHOICE, unsafe (log 3). -/
def flagsReset : Byte := 0x20#8

/-- `NMI_VECTOR` (R49), read by no rule (log 19). -/
def nmiVector : Addr := 0xFFFA#16

/-- `RESET_VECTOR` (R49), read by no rule: reset does not load PC from it (log 19). -/
def resetVector : Addr := 0xFFFC#16

/-- `IRQ_VECTOR` (R49), read by no rule (log 19). -/
def irqVector : Addr := 0xFFFE#16

end Sys2Proof.Machine.Params
end

