-- ==== Sys2Proof/Machine/State.lean ====
section
/-! DEFINITION. The state of the core (spec/10_state.md), the reasons a step can stop (spec/60_exceptions.md R200), and the state after reset (R230). -/

namespace Sys2Proof.Machine

/-- `MEM` (R33): the listed bytes, every other address reading as 0x00, the value reset gives every byte (log 7). Canonical form: addresses strictly rising and below 65536, no listed byte 0x00 (`Memory.wf`). -/
abbrev Memory := List Host.Cell

/-- The rest of a memory is in canonical form and lists nothing below `lo`. -/
def Memory.wfFrom (lo : Nat) : Memory → Bool
  | [] => true
  | (a, b) :: rest =>
    decide (lo ≤ a) && decide (a < 65536) && decide (b ≠ 0#8) && Memory.wfFrom (a + 1) rest

/-- The memory is in canonical form. -/
def Memory.wf (m : Memory) : Bool := Memory.wfFrom 0 m

/-- All the state of the core (spec/10_state.md, heading; R34, R35). -/
structure State where
  /-- `A`, the accumulator (R20) -/
  a : Byte
  /-- `X` (R21) -/
  x : Byte
  /-- `Y` (R22) -/
  y : Byte
  /-- `SP` (R23) -/
  sp : Byte
  /-- `PC` (R25): between steps, the address of the next opcode byte -/
  pc : Addr
  /-- `P` (R26): carry in bit 0, zero in bit 1, overflow in bit 6, negative in bit 7; bits 5:2 are plain storage (R29, log 21) -/
  p : Byte
  /-- `CYC` (R30), unbounded (log 10) -/
  cyc : Nat
  /-- `MEM` (R33) -/
  mem : Memory
  deriving DecidableEq, Repr

/-- The four flags of `P` (R26). -/
inductive Flag where
  /-- carry, bit 0 -/
  | c
  /-- zero, bit 1 -/
  | z
  /-- overflow, bit 6 -/
  | v
  /-- negative, bit 7 -/
  | n
  deriving DecidableEq, Repr

/-- The five faults (R200); the name is the code (D16). The three step faults carry the opcode byte and the address it was fetched from (R206). -/
inductive Fault where
  /-- Raised by `step` on an opcode byte outside the operation table (R201). Safe: the spec names this fault. -/
  | illegalOpcode (opcode : Byte) (address : Addr)
  /-- Raised by `tableStep` on an opcode in the operation table and not in the mode table (R202). Safe: the spec names this fault. -/
  | illegalAddressingMode (opcode : Byte) (address : Addr)
  /-- Raised by `tableStep` on an opcode in the first two tables and not in the timing table (R203). Safe: the spec names this fault. -/
  | illegalTiming (opcode : Byte) (address : Addr)
  /-- Raised by `loadBytes` when the data would run past the end of memory (R204, R234); never by a step (R57). Safe: the spec names this fault. -/
  | outOfBounds
  /-- Raised by `construct` when the entry address is outside memory (R205, R231); never by a step. Safe: the spec names this fault. -/
  | invalidEntryAddress
  deriving DecidableEq, Repr

/-- Why the model gives a step no meaning. -/
inductive Refusal where
  /-- Raised by `exec` for an instruction without a meaning: none is left. Safe. -/
  | notModelled (mnemonic : String)
  /-- Raised by `execute` when a table pairs the implied mode with an operation that needs a byte (U15); no default row does. Safe (log 13). -/
  | operandMissing
  /-- Raised by `decodeStop` if fewer bytes are fetched than an instruction is long; the fetch always gives three, so it does not arise. Safe (log 11). -/
  | incompleteFetch
  deriving DecidableEq, Repr

/-- The state right after reset (R230, R233): memory and registers zero, `P` the parameter `FLAGS_RESET`, `PC` the parameter `ENTRY`, the cycle counter 0. -/
def State.reset : State where
  a := 0x00#8
  x := 0x00#8
  y := 0x00#8
  sp := 0x00#8
  pc := Params.entry
  p := Params.flagsReset
  cyc := 0
  mem := []

end Sys2Proof.Machine
end

