-- ==== Sys2Proof/Machine/Ops.lean ====
section
/-! DEFINITION. The named operations over memory and registers: byte reads and writes (spec/20_memory.md), the fetch, the commit of PC and CYC (spec/40_step_dispatch.md R85, R86), raising a fault (R9, R83), reset and load (spec/70_reset_and_hazards.md). -/

namespace Sys2Proof.Machine

/-- The byte at an address; one that is not listed reads as 0x00 (R33, R230). -/
def Memory.read (m : Memory) (a : Nat) : Byte :=
  match m with
  | [] => 0#8
  | (k, b) :: rest => if k = a then b else Memory.read rest a

/-- Store a byte, keeping the canonical form: storing 0x00 removes the entry. -/
def Memory.write (m : Memory) (a : Nat) (v : Byte) : Memory :=
  match m with
  | [] => if v = 0#8 then [] else [(a, v)]
  | (k, b) :: rest =>
    if a < k then (if v = 0#8 then (k, b) :: rest else (a, v) :: (k, b) :: rest)
    else if a = k then (if v = 0#8 then rest else (a, v) :: rest)
    else (k, b) :: Memory.write rest a v

/-- `A <- v`. -/
def State.setA (s : State) (v : Byte) : State := { s with a := v }
/-- `X <- v` (the host only, R220). -/
def State.setX (s : State) (v : Byte) : State := { s with x := v }
/-- `Y <- v` (the host only, R220). -/
def State.setY (s : State) (v : Byte) : State := { s with y := v }
/-- `SP <- v` (the host only, R220). -/
def State.setSp (s : State) (v : Byte) : State := { s with sp := v }
/-- `PC <- v`. -/
def State.setPc (s : State) (v : Addr) : State := { s with pc := v }
/-- `P <- v`. -/
def State.setP (s : State) (v : Byte) : State := { s with p := v }
/-- `CYC <- CYC + n` (R86). -/
def State.addCyc (s : State) (n : Nat) : State := { s with cyc := s.cyc + n }
/-- Replace the memory. -/
def State.setMem (s : State) (m : Memory) : State := { s with mem := m }

/-- `MemRead(a, 1)` (R41). -/
def readByte (s : State) (a : Addr) : Byte := Memory.read s.mem a.toNat

/-- `MemRead16(a)` (R44): the byte at `a` is the low one, the byte at `a + 1` modulo 65536 the high one. -/
def readWord (s : State) (a : Addr) : Addr := joinBytes (readByte s (a + 1#16)) (readByte s a)

/-- `MemWrite(a, 1, v)` (R42). No instruction calls it. -/
def writeByte (s : State) (a : Addr) (v : Byte) : State := s.setMem (Memory.write s.mem a.toNat v)

/-- The address after the opcode byte, `pc1` (R81). -/
def pc1 (s : State) : Addr := s.pc + 1#16

/-- The three bytes from PC on, the longest an instruction can be, wrapping at the top of memory (R43, R60; log 11). -/
def fetchBytes (s : State) : List Byte :=
  [readByte s s.pc, readByte s (s.pc + 1#16), readByte s (s.pc + 2#16)]

/-- The commit of a completed step: PC past the opcode and the `n` operand bytes (R85), CYC charged (R86). -/
def commit (n cost : Nat) (s : State) : State :=
  (s.setPc (pc1 s + BitVec.ofNat 16 n)).addCyc cost

/-- `raise F` (R9, R83, R213): a step (or a load, or construction) ends with the fault, which is returned to the host; it saves nothing, enters no handler and changes no state. There is no return from it (R214). -/
def raise {σ : Type} (f : Fault) : Host.Outcome σ Fault Refusal := .fault f

/-- How a step ends whose bytes do not decode: `IllegalOpcode` with the opcode byte and the address it was fetched from (R82, R201, R206). -/
def decodeStop (r : DecodeRefusal) (s : State) : Host.Outcome State Fault Refusal :=
  match r with
  | .illegalOpcode op => raise (.illegalOpcode op s.pc)
  | .noOpcode => .refused .incompleteFetch
  | .truncated _ => .refused .incompleteFetch

/-- Store a list of bytes from an address on, wrapping at the top of memory. -/
def storeBytes (s : State) (a : Addr) : List Byte → State
  | [] => s
  | b :: rest => storeBytes (writeByte s a b) (a + 1#16) rest

/-- The reset state of a core with given `ENTRY` and `FLAGS_RESET` (R230). -/
def resetWith (entry : Addr) (flagsReset : Byte) : State :=
  ⟨0x00#8, 0x00#8, 0x00#8, 0x00#8, entry, flagsReset, 0, []⟩

/-- The copying loop of `load_bytes` (R234); it is called with an end inside memory only. -/
def loadLoop (m : Memory) (offset : Nat) : List Byte → Memory
  | [] => m
  | b :: rest => loadLoop (Memory.write m offset b) (offset + 1) rest

/-- `load_bytes(data, offset)` (R234): `OutOfBounds` and no byte written if the data would pass the end of memory. -/
def loadBytes (data : List Byte) (offset : Nat) (s : State) : Host.Outcome State Fault Refusal :=
  if 65536 < offset + data.length then raise .outOfBounds
  else .next (s.setMem (loadLoop s.mem offset data))

end Sys2Proof.Machine
end

