-- ==== Sys2Proof/Machine/Flags.lean ====
section
/-! DEFINITION. Reading and writing the flags of P (spec/10_state.md R26, R27) and `SetZN` (spec/42_alu_operations.md R130). -/

namespace Sys2Proof.Machine

/-- The bit of `P` a flag is (R26). -/
def flagBit : Flag → Nat
  | .c => 0
  | .z => 1
  | .v => 6
  | .n => 7

/-- `(P >> b) & 1` (R27). -/
def readFlag (p : Byte) (f : Flag) : Bool := (p >>> flagBit f) &&& 1#8 == 1#8

/-- `(P & ~(1 << b)) | (v << b)` (R27): exactly one bit changes. -/
def writeFlag (p : Byte) (f : Flag) (v : Bool) : Byte :=
  (p &&& ~~~(1#8 <<< flagBit f)) ||| ((if v then 1#8 else 0#8) <<< flagBit f)

/-- `SetZN(d)` (R130): zero and negative from one byte, on the packed flags. -/
def setZN (d : Byte) (p : Byte) : Byte :=
  writeFlag (writeFlag p .z (d == 0#8)) .n (d.getLsbD 7)

/-- Flag `f` of a state, as one bit. -/
def State.flag (s : State) (f : Flag) : Bool := readFlag s.p f

end Sys2Proof.Machine
end

