-- ==== Sys2Proof/Machine/Operands.lean ====
section
/-! DEFINITION. The addressing-mode resolver (spec/41_addressing_modes.md): what each mode yields for an instruction at PC, given its operand bytes, and the page-boundary report. -/

namespace Sys2Proof.Machine

/-- What the resolver returns (R84, R100): the operand byte (nothing for the implied mode), the number of operand bytes, the page-boundary report. -/
structure Resolved where
  m : Option Byte
  n : Nat
  crossed : Bool
  deriving DecidableEq, Repr

/-- The page-boundary report (R100): `pc1[7:0] + n >= 256`. -/
def crossedPage (a : Addr) (n : Nat) : Bool := decide (256 ≤ a.toNat % 256 + n)

/-- `zext_16` (R8). -/
def zext16 (b : Byte) : Addr := b.setWidth 16

/-- The zero-page index sum (R106, R107): not wrapped to 8 bits under `REFERENCE`, modulo 256 under `CORRECTED`. -/
def zeroPageIndexed (prof : Profile) (b0 index : Byte) : Addr :=
  match prof with
  | .reference => zext16 b0 + zext16 index
  | .corrected => zext16 (b0 + index)

/-- A pointer in the zero page, the address of its high byte wrapping within the page (R111, R112 under `CORRECTED`). -/
def zeroPagePointer (s : State) (p : Byte) : Addr :=
  joinBytes (readByte s (zext16 (p + 1#8))) (readByte s (zext16 p))

/-- Implied (R102). -/
def resolveImp : Resolved := ⟨none, 0, false⟩

/-- Accumulator (R103). -/
def resolveAcc (s : State) : Resolved := ⟨some s.a, 0, false⟩

/-- Immediate (R104). -/
def resolveImm (m : Byte) (s : State) : Resolved := ⟨some m, 1, crossedPage (pc1 s) 1⟩

/-- Zero-page (R105). -/
def resolveZp (b0 : Byte) (s : State) : Resolved :=
  ⟨some (readByte s (zext16 b0)), 1, crossedPage (pc1 s) 1⟩

/-- Zero-page,X (R106). -/
def resolveZpx (prof : Profile) (b0 : Byte) (s : State) : Resolved :=
  ⟨some (readByte s (zeroPageIndexed prof b0 s.x)), 1, crossedPage (pc1 s) 1⟩

/-- Zero-page,Y (R107). -/
def resolveZpy (prof : Profile) (b0 : Byte) (s : State) : Resolved :=
  ⟨some (readByte s (zeroPageIndexed prof b0 s.y)), 1, crossedPage (pc1 s) 1⟩

/-- Absolute (R108). -/
def resolveAbs (addr : Addr) (s : State) : Resolved :=
  ⟨some (readByte s addr), 2, crossedPage (pc1 s) 2⟩

/-- Absolute,X (R109). -/
def resolveAbx (addr : Addr) (s : State) : Resolved :=
  ⟨some (readByte s (addr + zext16 s.x)), 2, crossedPage (pc1 s) 2⟩

/-- Absolute,Y (R110). -/
def resolveAby (addr : Addr) (s : State) : Resolved :=
  ⟨some (readByte s (addr + zext16 s.y)), 2, crossedPage (pc1 s) 2⟩

/-- The operand of the indirect,X mode (R111): open under `REFERENCE` (log 5). -/
def operandInx (prof : Profile) (b0 : Byte) (s : State) : Byte :=
  match prof with
  | .reference => Config.indirectRef .inx b0 s.x (readByte s)
  | .corrected => readByte s (zeroPagePointer s (b0 + s.x))

/-- The operand of the indirect,Y mode (R112): open under `REFERENCE` (log 5). -/
def operandIny (prof : Profile) (b0 : Byte) (s : State) : Byte :=
  match prof with
  | .reference => Config.indirectRef .iny b0 s.y (readByte s)
  | .corrected => readByte s (zeroPagePointer s b0 + zext16 s.y)

/-- Indirect,X (R111). -/
def resolveInx (prof : Profile) (b0 : Byte) (s : State) : Resolved :=
  ⟨some (operandInx prof b0 s), 1, crossedPage (pc1 s) 1⟩

/-- Indirect,Y (R112). -/
def resolveIny (prof : Profile) (b0 : Byte) (s : State) : Resolved :=
  ⟨some (operandIny prof b0 s), 1, crossedPage (pc1 s) 1⟩

/-- Relative (R113): the raw byte, and no page check. -/
def resolveRel (m : Byte) : Resolved := ⟨some m, 1, false⟩

/-- `Resolve(mode, pc1)` (R84) for the instruction at PC, its operand bytes read from memory (R63). -/
def resolve (prof : Profile) (mode : Mode) (s : State) : Resolved :=
  match mode with
  | .imp => resolveImp
  | .acc => resolveAcc s
  | .imm => resolveImm (readByte s (pc1 s)) s
  | .zp => resolveZp (readByte s (pc1 s)) s
  | .zpx => resolveZpx prof (readByte s (pc1 s)) s
  | .zpy => resolveZpy prof (readByte s (pc1 s)) s
  | .abs => resolveAbs (readWord s (pc1 s)) s
  | .abx => resolveAbx (readWord s (pc1 s)) s
  | .aby => resolveAby (readWord s (pc1 s)) s
  | .inx => resolveInx prof (readByte s (pc1 s)) s
  | .iny => resolveIny prof (readByte s (pc1 s)) s
  | .rel => resolveRel (readByte s (pc1 s))

end Sys2Proof.Machine
end

