-- ==== Sys2Proof/Machine/Handlers.lean ====
section
/-! DEFINITION. The operation handlers (spec/42_alu_operations.md R131 to R135, spec/43_branches.md R170 to R179) and the end of a step that has been decoded: commit, then handler (spec/40_step_dispatch.md R85 to R87). -/

namespace Sys2Proof.Machine

/-- `Execute(ADC, m)` (R131). `V` is not written (U6); there is no decimal mode (U7). -/
def addWithCarry (m : Byte) (s : State) : State :=
  let sum := s.a.toNat + m.toNat + (s.flag .c).toNat
  let a' : Byte := BitVec.ofNat 8 sum
  (s.setA a').setP (setZN a' (writeFlag s.p .c (decide (255 < sum))))

/-- `Execute(AND, m)` (R132). -/
def bitwiseAnd (m : Byte) (s : State) : State :=
  (s.setA (s.a &&& m)).setP (setZN (s.a &&& m) s.p)

/-- The byte whose zero and negative the shift reports (R133): the old accumulator under `REFERENCE`, the new one under `CORRECTED`. -/
def shiftFlagSource (prof : Profile) (old new : Byte) : Byte :=
  match prof with
  | .reference => old
  | .corrected => new

/-- `Execute(ASL, m)` (R133): it shifts the accumulator whatever the mode (log 17); the carry is bit `ASL_CARRY_BIT` of the old accumulator. -/
def shiftLeft (prof : Profile) (carryBit : Fin 8) (s : State) : State :=
  (s.setA (s.a <<< 1)).setP
    (setZN (shiftFlagSource prof s.a (s.a <<< 1)) (writeFlag s.p .c (s.a.getLsbD carryBit)))

/-- `Execute(BIT, m)` (R134). -/
def bitTest (m : Byte) (s : State) : State :=
  s.setP (writeFlag (writeFlag (writeFlag s.p .z (s.a &&& m == 0#8)) .n (m.getLsbD 7)) .v (m.getLsbD 6))

/-- `Disp(m)` (R170): sign and magnitude under `REFERENCE`, two's complement under `CORRECTED`. -/
def displacement (prof : Profile) (m : Byte) : Int :=
  if m.toNat ≤ 127 then (m.toNat : Int)
  else match prof with
    | .reference => -((m.toNat : Int) - 128)
    | .corrected => (m.toNat : Int) - 256

/-- `Execute(Bcc, m)` (R171), PC being already past the branch; the sum wraps modulo 65536 (R43). -/
def branchIf (prof : Profile) (cond : Bool) (m : Byte) (s : State) : State :=
  if cond then s.setPc (BitVec.ofInt 16 ((s.pc.toNat : Int) + displacement prof m)) else s

/-- The handler of an operation that needs its operand byte; a table that supplies none has no meaning (U15, log 13). -/
def withOperand (m : Option Byte) (k : Byte → State) : Host.Outcome State Fault Refusal :=
  match m with
  | some b => .next (k b)
  | none => .refused .operandMissing

/-- `Execute(op, m)` (R87). -/
def execute (prof : Profile) (carryBit : Fin 8) (op : Operation) (m : Option Byte) (s : State) :
    Host.Outcome State Fault Refusal :=
  match op with
  | .adc => withOperand m fun b => addWithCarry b s
  | .and => withOperand m fun b => bitwiseAnd b s
  | .asl => .next (shiftLeft prof carryBit s)
  | .bit => withOperand m fun b => bitTest b s
  | .nop => .next s
  | .bcc => withOperand m fun b => branchIf prof (!s.flag .c) b s
  | .bcs => withOperand m fun b => branchIf prof (s.flag .c) b s
  | .beq => withOperand m fun b => branchIf prof (s.flag .z) b s
  | .bne => withOperand m fun b => branchIf prof (!s.flag .z) b s
  | .bmi => withOperand m fun b => branchIf prof (s.flag .n) b s
  | .bpl => withOperand m fun b => branchIf prof (!s.flag .n) b s
  | .bvc => withOperand m fun b => branchIf prof (!s.flag .v) b s
  | .bvs => withOperand m fun b => branchIf prof (s.flag .v) b s

/-- The cost of a completed step (R191). -/
def cost (base pen : Nat) (crossed : Bool) : Nat := base + (if crossed then pen else 0)

/-- The end of a step (R80): commit PC and CYC (R85, R86), then the handler (R87). -/
def complete (prof : Profile) (carryBit : Fin 8) (op : Operation) (r : Resolved) (base pen : Nat)
    (s : State) : Host.Outcome State Fault Refusal :=
  execute prof carryBit op r.m (commit r.n (cost base pen r.crossed) s)

/-- One form of the opcode table on this core. -/
def runForm (op : Operation) (r : Resolved) (base pen : Nat) (s : State) :
    Host.Outcome State Fault Refusal :=
  complete Params.profile Params.aslCarryBit op r base pen s

end Sys2Proof.Machine
end

