-- ==== Sys2Proof/Machine/AddWithCarry.lean ====
section
/-! DEFINITION. Add with carry, eight forms (spec/42_alu_operations.md R140 to R147): each is its mode's operand, its timing entry and its operation's handler. -/

namespace Sys2Proof.Machine

/-- `ADC #$nn` (R140). -/
def execAdcImm (m : Byte) (s : State) : Host.Outcome State Fault Refusal :=
  runForm .adc (resolveImm m s) 2 0 s

/-- `ADC $nn` (R141). -/
def execAdcZp (b0 : Byte) (s : State) : Host.Outcome State Fault Refusal :=
  runForm .adc (resolveZp b0 s) 3 0 s

/-- `ADC $nn,X` (R142). -/
def execAdcZpx (b0 : Byte) (s : State) : Host.Outcome State Fault Refusal :=
  runForm .adc (resolveZpx Params.profile b0 s) 4 0 s

/-- `ADC $hhll` (R143). -/
def execAdcAbs (addr : Addr) (s : State) : Host.Outcome State Fault Refusal :=
  runForm .adc (resolveAbs addr s) 4 0 s

/-- `ADC $hhll,X` (R144). -/
def execAdcAbx (addr : Addr) (s : State) : Host.Outcome State Fault Refusal :=
  runForm .adc (resolveAbx addr s) 4 1 s

/-- `ADC $hhll,Y` (R145). -/
def execAdcAby (addr : Addr) (s : State) : Host.Outcome State Fault Refusal :=
  runForm .adc (resolveAby addr s) 4 1 s

/-- `ADC ($nn,X)` (R146). -/
def execAdcInx (b0 : Byte) (s : State) : Host.Outcome State Fault Refusal :=
  runForm .adc (resolveInx Params.profile b0 s) 6 0 s

/-- `ADC ($nn),Y` (R147). -/
def execAdcIny (b0 : Byte) (s : State) : Host.Outcome State Fault Refusal :=
  runForm .adc (resolveIny Params.profile b0 s) 5 1 s

end Sys2Proof.Machine
end

