-- ==== Sys2Proof/Machine/BitTest.lean ====
section
/-! DEFINITION. Bit test, two forms (spec/42_alu_operations.md R161, R162): each is its mode's operand, its timing entry and its operation's handler. -/

namespace Sys2Proof.Machine

/-- `BIT $nn` (R161). -/
def execBitZp (b0 : Byte) (s : State) : Host.Outcome State Fault Refusal :=
  runForm .bit (resolveZp b0 s) 3 0 s

/-- `BIT $hhll` (R162). -/
def execBitAbs (addr : Addr) (s : State) : Host.Outcome State Fault Refusal :=
  runForm .bit (resolveAbs addr s) 4 0 s

end Sys2Proof.Machine
end

