-- ==== Sys2Proof/Machine/BitwiseAnd.lean ====
section
/-! DEFINITION. Bitwise AND, eight forms (spec/42_alu_operations.md R148 to R155): each is its mode's operand, its timing entry and its operation's handler. -/

namespace Sys2Proof.Machine

/-- `AND #$nn` (R148). -/
def execAndImm (m : Byte) (s : State) : Host.Outcome State Fault Refusal :=
  runForm .and (resolveImm m s) 2 0 s

/-- `AND $nn` (R149). -/
def execAndZp (b0 : Byte) (s : State) : Host.Outcome State Fault Refusal :=
  runForm .and (resolveZp b0 s) 3 0 s

/-- `AND $nn,X` (R150). -/
def execAndZpx (b0 : Byte) (s : State) : Host.Outcome State Fault Refusal :=
  runForm .and (resolveZpx Params.profile b0 s) 4 0 s

/-- `AND $hhll` (R151). -/
def execAndAbs (addr : Addr) (s : State) : Host.Outcome State Fault Refusal :=
  runForm .and (resolveAbs addr s) 4 0 s

/-- `AND $hhll,X` (R152). -/
def execAndAbx (addr : Addr) (s : State) : Host.Outcome State Fault Refusal :=
  runForm .and (resolveAbx addr s) 4 1 s

/-- `AND $hhll,Y` (R153). -/
def execAndAby (addr : Addr) (s : State) : Host.Outcome State Fault Refusal :=
  runForm .and (resolveAby addr s) 4 1 s

/-- `AND ($nn,X)` (R154). -/
def execAndInx (b0 : Byte) (s : State) : Host.Outcome State Fault Refusal :=
  runForm .and (resolveInx Params.profile b0 s) 6 0 s

/-- `AND ($nn),Y` (R155). -/
def execAndIny (b0 : Byte) (s : State) : Host.Outcome State Fault Refusal :=
  runForm .and (resolveIny Params.profile b0 s) 5 1 s

end Sys2Proof.Machine
end

