-- ==== Sys2Proof/Machine/Branches.lean ====
section
/-! DEFINITION. The eight conditional relative branches (spec/43_branches.md R172 to R179): each is its mode's operand, its timing entry and its operation's handler. -/

namespace Sys2Proof.Machine

/-- `BCC rel` (R172). -/
def execBcc (m : Byte) (s : State) : Host.Outcome State Fault Refusal :=
  runForm .bcc (resolveRel m) 2 0 s

/-- `BCS rel` (R173). -/
def execBcs (m : Byte) (s : State) : Host.Outcome State Fault Refusal :=
  runForm .bcs (resolveRel m) 2 0 s

/-- `BEQ rel` (R174). -/
def execBeq (m : Byte) (s : State) : Host.Outcome State Fault Refusal :=
  runForm .beq (resolveRel m) 2 0 s

/-- `BNE rel` (R175). -/
def execBne (m : Byte) (s : State) : Host.Outcome State Fault Refusal :=
  runForm .bne (resolveRel m) 2 0 s

/-- `BMI rel` (R176). -/
def execBmi (m : Byte) (s : State) : Host.Outcome State Fault Refusal :=
  runForm .bmi (resolveRel m) 2 0 s

/-- `BPL rel` (R177). -/
def execBpl (m : Byte) (s : State) : Host.Outcome State Fault Refusal :=
  runForm .bpl (resolveRel m) 2 0 s

/-- `BVC rel` (R178). -/
def execBvc (m : Byte) (s : State) : Host.Outcome State Fault Refusal :=
  runForm .bvc (resolveRel m) 2 0 s

/-- `BVS rel` (R179). -/
def execBvs (m : Byte) (s : State) : Host.Outcome State Fault Refusal :=
  runForm .bvs (resolveRel m) 2 0 s

end Sys2Proof.Machine
end

