-- ==== Sys2Proof/Machine/NoOperation.lean ====
section
/-! DEFINITION. No-operation (spec/42_alu_operations.md R163): each is its mode's operand, its timing entry and its operation's handler. -/

namespace Sys2Proof.Machine

/-- `NOP` (R163). -/
def execNop (s : State) : Host.Outcome State Fault Refusal :=
  runForm .nop resolveImp 2 0 s

end Sys2Proof.Machine
end

