-- ==== Sys2Proof/Machine/ShiftLeft.lean ====
section
/-! DEFINITION. Arithmetic shift left, five forms (spec/42_alu_operations.md R156 to R160): each is its mode's operand, its timing entry and its operation's handler. -/

namespace Sys2Proof.Machine

/-- `ASL A` (R156). -/
def execAslAcc (s : State) : Host.Outcome State Fault Refusal :=
  runForm .asl (resolveAcc s) 2 0 s

/-- `ASL $nn` (R157). -/
def execAslZp (b0 : Byte) (s : State) : Host.Outcome State Fault Refusal :=
  runForm .asl (resolveZp b0 s) 5 0 s

/-- `ASL $nn,X` (R158). -/
def execAslZpx (b0 : Byte) (s : State) : Host.Outcome State Fault Refusal :=
  runForm .asl (resolveZpx Params.profile b0 s) 6 0 s

/-- `ASL $hhll` (R159). -/
def execAslAbs (addr : Addr) (s : State) : Host.Outcome State Fault Refusal :=
  runForm .asl (resolveAbs addr s) 6 0 s

/-- `ASL $hhll,X` (R160). -/
def execAslAbx (addr : Addr) (s : State) : Host.Outcome State Fault Refusal :=
  runForm .asl (resolveAbx addr s) 7 0 s

end Sys2Proof.Machine
end

