-- ==== Sys2Proof/Machine/Dispatch.lean ====
section
/-! DEFINITION. The dispatch of an instruction to its meaning, one arm per constructor. -/

namespace Sys2Proof.Machine

def exec (i : Instr) (s : State) : Host.Outcome State Fault Refusal :=
  match i with
  | .adcImm m => Sys2Proof.Machine.execAdcImm m s
  | .adcZp b0 => Sys2Proof.Machine.execAdcZp b0 s
  | .adcZpx b0 => Sys2Proof.Machine.execAdcZpx b0 s
  | .adcAbs addr => Sys2Proof.Machine.execAdcAbs addr s
  | .adcAbx addr => Sys2Proof.Machine.execAdcAbx addr s
  | .adcAby addr => Sys2Proof.Machine.execAdcAby addr s
  | .adcInx b0 => Sys2Proof.Machine.execAdcInx b0 s
  | .adcIny b0 => Sys2Proof.Machine.execAdcIny b0 s
  | .andImm m => Sys2Proof.Machine.execAndImm m s
  | .andZp b0 => Sys2Proof.Machine.execAndZp b0 s
  | .andZpx b0 => Sys2Proof.Machine.execAndZpx b0 s
  | .andAbs addr => Sys2Proof.Machine.execAndAbs addr s
  | .andAbx addr => Sys2Proof.Machine.execAndAbx addr s
  | .andAby addr => Sys2Proof.Machine.execAndAby addr s
  | .andInx b0 => Sys2Proof.Machine.execAndInx b0 s
  | .andIny b0 => Sys2Proof.Machine.execAndIny b0 s
  | .aslAcc => Sys2Proof.Machine.execAslAcc s
  | .aslZp b0 => Sys2Proof.Machine.execAslZp b0 s
  | .aslZpx b0 => Sys2Proof.Machine.execAslZpx b0 s
  | .aslAbs addr => Sys2Proof.Machine.execAslAbs addr s
  | .aslAbx addr => Sys2Proof.Machine.execAslAbx addr s
  | .bitZp b0 => Sys2Proof.Machine.execBitZp b0 s
  | .bitAbs addr => Sys2Proof.Machine.execBitAbs addr s
  | .nop => Sys2Proof.Machine.execNop s
  | .bcc m => Sys2Proof.Machine.execBcc m s
  | .bcs m => Sys2Proof.Machine.execBcs m s
  | .beq m => Sys2Proof.Machine.execBeq m s
  | .bne m => Sys2Proof.Machine.execBne m s
  | .bmi m => Sys2Proof.Machine.execBmi m s
  | .bpl m => Sys2Proof.Machine.execBpl m s
  | .bvc m => Sys2Proof.Machine.execBvc m s
  | .bvs m => Sys2Proof.Machine.execBvs m s

end Sys2Proof.Machine
end

