-- ==== Sys2Proof/Machine/Step.lean ====
section
/-! DEFINITION. The step of the core (spec/40_step_dispatch.md R80, R81): fetch at PC, decode, run; and the placing of one instruction where the step fetches. -/

namespace Sys2Proof.Machine

/-- One step: the instruction whose bytes stand at PC runs; bytes that are none raise `IllegalOpcode` (R82). -/
def step (s : State) : Host.Outcome State Fault Refusal :=
  match decode (fetchBytes s) with
  | .instr i _ => exec i s
  | .refused r => decodeStop r s

/-- The state with the instruction whose bits are `w` stored at PC, three bytes, wrapping at the top of memory; nothing else changes. It stands for the host's `load_bytes` (log 8). -/
def State.withFetchWord (s : State) (nbits w : Nat) : State :=
  storeBytes s s.pc (tableBytes nbits w)

end Sys2Proof.Machine
end

