-- ==== Sys2Proof/Machine/Tables.lean ====
section
/-! DEFINITION. `DEFAULT_TABLES` (spec/30_encoding.md R64, spec/44_timing.md R192) and the configuration of this core. PRESUMED by the spec itself: opcode bytes, most pairings and most costs are general knowledge there (decision D2, log 4), unsafe. -/

namespace Sys2Proof.Machine

/-- The default `OPTABLE` (R64). -/
def defaultOpTable : List (Byte × Operation) :=
  [(0x69#8, .adc), (0x65#8, .adc), (0x75#8, .adc), (0x6D#8, .adc), (0x7D#8, .adc), (0x79#8, .adc), (0x61#8, .adc), (0x71#8, .adc)] ++
  [(0x29#8, .and), (0x25#8, .and), (0x35#8, .and), (0x2D#8, .and), (0x3D#8, .and), (0x39#8, .and), (0x21#8, .and), (0x31#8, .and)] ++
  [(0x0A#8, .asl), (0x06#8, .asl), (0x16#8, .asl), (0x0E#8, .asl), (0x1E#8, .asl), (0x24#8, .bit), (0x2C#8, .bit), (0xEA#8, .nop)] ++
  [(0x90#8, .bcc), (0xB0#8, .bcs), (0xF0#8, .beq), (0xD0#8, .bne), (0x30#8, .bmi), (0x10#8, .bpl), (0x50#8, .bvc), (0x70#8, .bvs)]

/-- The default `MODETABLE` (R64). -/
def defaultModeTable : List (Byte × Mode) :=
  [(0x69#8, .imm), (0x65#8, .zp), (0x75#8, .zpx), (0x6D#8, .abs), (0x7D#8, .abx), (0x79#8, .aby), (0x61#8, .inx), (0x71#8, .iny)] ++
  [(0x29#8, .imm), (0x25#8, .zp), (0x35#8, .zpx), (0x2D#8, .abs), (0x3D#8, .abx), (0x39#8, .aby), (0x21#8, .inx), (0x31#8, .iny)] ++
  [(0x0A#8, .acc), (0x06#8, .zp), (0x16#8, .zpx), (0x0E#8, .abs), (0x1E#8, .abx), (0x24#8, .zp), (0x2C#8, .abs), (0xEA#8, .imp)] ++
  [(0x90#8, .rel), (0xB0#8, .rel), (0xF0#8, .rel), (0xD0#8, .rel), (0x30#8, .rel), (0x10#8, .rel), (0x50#8, .rel), (0x70#8, .rel)]

/-- The default `TIMETABLE` (R64, R192). -/
def defaultTimeTable : List (Byte × Timing) :=
  [(0x69#8, ⟨2, 0⟩), (0x65#8, ⟨3, 0⟩), (0x75#8, ⟨4, 0⟩), (0x6D#8, ⟨4, 0⟩), (0x7D#8, ⟨4, 1⟩), (0x79#8, ⟨4, 1⟩), (0x61#8, ⟨6, 0⟩), (0x71#8, ⟨5, 1⟩)] ++
  [(0x29#8, ⟨2, 0⟩), (0x25#8, ⟨3, 0⟩), (0x35#8, ⟨4, 0⟩), (0x2D#8, ⟨4, 0⟩), (0x3D#8, ⟨4, 1⟩), (0x39#8, ⟨4, 1⟩), (0x21#8, ⟨6, 0⟩), (0x31#8, ⟨5, 1⟩)] ++
  [(0x0A#8, ⟨2, 0⟩), (0x06#8, ⟨5, 0⟩), (0x16#8, ⟨6, 0⟩), (0x0E#8, ⟨6, 0⟩), (0x1E#8, ⟨7, 0⟩), (0x24#8, ⟨3, 0⟩), (0x2C#8, ⟨4, 0⟩), (0xEA#8, ⟨2, 0⟩)] ++
  [(0x90#8, ⟨2, 0⟩), (0xB0#8, ⟨2, 0⟩), (0xF0#8, ⟨2, 0⟩), (0xD0#8, ⟨2, 0⟩), (0x30#8, ⟨2, 0⟩), (0x10#8, ⟨2, 0⟩), (0x50#8, ⟨2, 0⟩), (0x70#8, ⟨2, 0⟩)]

/-- The configuration of this core. -/
def machineConfig : Config where
  profile := Params.profile
  aslCarryBit := Params.aslCarryBit
  entry := Params.entry
  flagsReset := Params.flagsReset
  opTable := defaultOpTable
  modeTable := defaultModeTable
  timeTable := defaultTimeTable

end Sys2Proof.Machine
end

