-- ==== Sys2Proof/Machine/TableStep.lean ====
section
/-! DEFINITION. The step for any configuration, as spec/40_step_dispatch.md R80 writes it: three table lookups keyed by the opcode byte, each with its fault (R82). `step` is this step under `machineConfig`. -/

namespace Sys2Proof.Machine

/-- The step of R80 under a configuration. -/
def tableStep (c : Config) (s : State) : Host.Outcome State Fault Refusal :=
  let opcode := readByte s s.pc
  match c.opTable.lookup opcode with
  | none => raise (.illegalOpcode opcode s.pc)
  | some op =>
    match c.modeTable.lookup opcode with
    | none => raise (.illegalAddressingMode opcode s.pc)
    | some mode =>
      match c.timeTable.lookup opcode with
      | none => raise (.illegalTiming opcode s.pc)
      | some t => complete c.profile c.aslCarryBit op (resolve c.profile mode s) t.base t.pen s

/-- The reset state of a core with a given configuration (R230). -/
def resetOf (c : Config) : State := resetWith c.entry c.flagsReset

end Sys2Proof.Machine
end

