-- ==== Sys2Proof/Machine/HostOps.lean ====
section
/-! DEFINITION. The host's interface (spec/60_exceptions.md R219, R220, R222; spec/70_reset_and_hazards.md R230, R231, R234): construction, what the host may do between steps, and what it gets back. A core keeps the configuration it was constructed with for its lifetime (R7, R34): every action takes it, none changes it. A fault is a reply to the host and changes no state (R208). -/

namespace Sys2Proof.Machine

/-- A core as construction makes it: its configuration, `ENTRY` in it, and its state (R231). Only the state changes afterwards. -/
structure BuiltCore where
  config : Config
  state : State
  deriving DecidableEq, Repr

/-- Construction with an entry address (R231): `InvalidEntryAddress` if it is outside memory and no core exists, else a core whose `ENTRY` is that address and which has been reset. The other parameters are those of the given configuration. -/
def construct (c : Config) (entry : Nat) : Host.Outcome BuiltCore Fault Refusal :=
  if entry < 65536 then
    let built : Config := { c with entry := BitVec.ofNat 16 entry }
    .next ⟨built, resetOf built⟩
  else raise .invalidEntryAddress

/-- What the host may read (R219). -/
inductive Query where
  | a
  | x
  | y
  | sp
  | pc
  | p
  | flag (f : Flag)
  | mem (addr : Addr)
  | cyc
  deriving DecidableEq, Repr

/-- What the host may do between steps (R222). -/
inductive HostAction where
  /-- reinitialise all state (R230) -/
  | reset
  /-- `load_bytes` (R234) -/
  | load (data : List Byte) (offset : Nat)
  /-- execute one instruction (R80) -/
  | step
  /-- read one piece of state (R219) -/
  | read (q : Query)
  | setA (v : Byte)
  | setX (v : Byte)
  | setY (v : Byte)
  | setSp (v : Byte)
  | setPc (v : Addr)
  | setP (v : Byte)
  | setFlag (f : Flag) (v : Bool)
  | setMem (addr : Addr) (v : Byte)
  /-- stop calling `step` (R222, R241) -/
  | stop
  deriving DecidableEq, Repr

/-- What the host gets back. -/
inductive Reply where
  | done
  | value (n : Nat)
  | faulted (f : Fault)
  | refused (r : Refusal)
  deriving DecidableEq, Repr

/-- The value of a query (R219), as a number. -/
def answer (q : Query) (s : State) : Nat :=
  match q with
  | .a => s.a.toNat
  | .x => s.x.toNat
  | .y => s.y.toNat
  | .sp => s.sp.toNat
  | .pc => s.pc.toNat
  | .p => s.p.toNat
  | .flag f => (s.flag f).toNat
  | .mem addr => (readByte s addr).toNat
  | .cyc => s.cyc

/-- The state and the reply after an operation that can fail: a fault leaves the state as it was (R83, R208, log 9). -/
def settleOutcome (s : State) (o : Host.Outcome State Fault Refusal) : State × Reply :=
  match o with
  | .next t => (t, .done)
  | .fault f => (s, .faulted f)
  | .refused r => (s, .refused r)

/-- One action of the host on a core with configuration `c` (R222). Reset gives PC the `ENTRY` the core was constructed with (R230). Host writes are decision D10 (log 16); `CYC` is written by reset and step only. -/
def hostAct (c : Config) (h : HostAction) (s : State) : State × Reply :=
  match h with
  | .reset => (resetOf c, .done)
  | .load data offset => settleOutcome s (loadBytes data offset s)
  | .step => settleOutcome s (tableStep c s)
  | .read q => (s, .value (answer q s))
  | .setA v => (s.setA v, .done)
  | .setX v => (s.setX v, .done)
  | .setY v => (s.setY v, .done)
  | .setSp v => (s.setSp v, .done)
  | .setPc v => (s.setPc v, .done)
  | .setP v => (s.setP v, .done)
  | .setFlag f v => (s.setP (writeFlag s.p f v), .done)
  | .setMem addr v => (writeByte s addr v, .done)
  | .stop => (s, .done)

end Sys2Proof.Machine
end

