-- ==== Sys2Proof/Machine/Reads.lean ====
section
/-! DEFINITION. The memory reads of one step, in order (spec/20_memory.md R48, R58; the order inside the resolver is the spec's decision D23, log 14). No state depends on them, since reads have no side effect (R47). -/

namespace Sys2Proof.Machine

/-- The reads of the resolver (R102 to R113): operand bytes low address first, pointer bytes low first, datum last. Under `REFERENCE` the indirect modes read the operand byte and then an open list (R58, log 6). -/
def resolveReads (prof : Profile) (mode : Mode) (s : State) : List Addr :=
  let b0 := readByte s (pc1 s)
  let w := readWord s (pc1 s)
  match mode with
  | .imp => []
  | .acc => []
  | .imm => [pc1 s]
  | .rel => [pc1 s]
  | .zp => [pc1 s, zext16 b0]
  | .zpx => [pc1 s, zeroPageIndexed prof b0 s.x]
  | .zpy => [pc1 s, zeroPageIndexed prof b0 s.y]
  | .abs => [pc1 s, pc1 s + 1#16, w]
  | .abx => [pc1 s, pc1 s + 1#16, w + zext16 s.x]
  | .aby => [pc1 s, pc1 s + 1#16, w + zext16 s.y]
  | .inx =>
    match prof with
    | .reference => pc1 s :: Config.indirectRefReads .inx b0 s.x (readByte s)
    | .corrected =>
      [pc1 s, zext16 (b0 + s.x), zext16 (b0 + s.x + 1#8), zeroPagePointer s (b0 + s.x)]
  | .iny =>
    match prof with
    | .reference => pc1 s :: Config.indirectRefReads .iny b0 s.y (readByte s)
    | .corrected =>
      [pc1 s, zext16 b0, zext16 (b0 + 1#8), zeroPagePointer s b0 + zext16 s.y]

/-- The reads of one step (R48): the opcode byte, then the resolver's; "A step whose opcode is absent from `OPTABLE` makes read (1) only", and so does one that has no mode (R114). -/
def stepReads (c : Config) (s : State) : List Addr :=
  match c.opTable.lookup (readByte s s.pc), c.modeTable.lookup (readByte s s.pc) with
  | some _, some mode => s.pc :: resolveReads c.profile mode s
  | _, _ => [s.pc]

end Sys2Proof.Machine
end

