-- ==== Sys2Proof/Safety.lean ====
section
/-! DEFINITION. What counts as a safe run, in the terms claims use: steps that complete (spec/70_reset_and_hazards.md R241) and the invariant of the state. -/

namespace Sys2Proof.Machine

/-- The step completes. -/
def Completes (s : State) : Prop := ∃ t, step s = .next t

/-- `n` steps that all complete lead from `s` to the given state, if any (R241). -/
def afterSteps : Nat → State → Option State
  | 0, s => some s
  | n + 1, s =>
    match step s with
    | .next t => afterSteps n t
    | .fault _ => none
    | .refused _ => none

/-- Bits 5:2 of P, which no instruction reads or writes (R29). -/
def reservedBits (p : Byte) : Byte := p &&& 0x3C#8

/-- The invariant of a core under its instructions: memory is in canonical form, and bits 5:2 of P hold what reset put there (R29). -/
def State.Inv (s : State) : Prop :=
  Memory.wf s.mem = true ∧ reservedBits s.p = reservedBits Params.flagsReset

end Sys2Proof.Machine
end

