-- ==== Sys2Proof/Certificates/Slice0/Obligations.lean ====
section
/-! DEFINITION. The statements for the provers, from the numbered rules of spec/. The first part names what several of them say; the rest are the obligations. -/

namespace Sys2Proof.Claims

open Sys2Proof.Machine

/-- What no instruction changes (R36, R90): X, Y, SP, every byte of memory, bits 5:2 of P. -/
def SameRest (s t : State) : Prop :=
  t.x = s.x ∧ t.y = s.y ∧ t.sp = s.sp ∧ (∀ a : Addr, readByte t a = readByte s a) ∧
    (∀ i : Nat, 2 ≤ i → i ≤ 5 → t.p.getLsbD i = s.p.getLsbD i)

/-- PC and CYC after an instruction of `len` bytes and cost `cost` that transfers no control (R85, R86). -/
def Advanced (s t : State) (len cost : Nat) : Prop :=
  t.pc.toNat = (s.pc.toNat + len) % 65536 ∧ t.cyc = s.cyc + cost

/-- The penalty cycle of a form whose timing entry has one: the operand bytes run into the next page (R100, R194). -/
def pagePenalty (s : State) (n : Nat) : Nat :=
  if 256 ≤ (s.pc.toNat + 1) % 256 + n then 1 else 0

/-- The byte of memory at a number below 65536. -/
def byteAt (s : State) (a : Nat) : Byte := Memory.read s.mem a

/-- Zero and negative are those of the byte `d` (R130). -/
def ZeroNegativeOf (t : State) (d : Byte) : Prop :=
  (t.flag .z = true ↔ d.toNat = 0) ∧ (t.flag .n = true ↔ 128 ≤ d.toNat)

/-- R131: A, C, Z and N after adding `m` and the carry to A; V as it was. -/
def AddsWithCarry (s t : State) (m : Byte) : Prop :=
  t.a.toNat = (s.a.toNat + m.toNat + (s.flag .c).toNat) % 256 ∧
    (t.flag .c = true ↔ 255 < s.a.toNat + m.toNat + (s.flag .c).toNat) ∧
    ZeroNegativeOf t t.a ∧ t.flag .v = s.flag .v

/-- R132: A, Z and N after the AND of A and `m`; C and V as they were. -/
def AndsAccumulator (s t : State) (m : Byte) : Prop :=
  (∀ i : Nat, t.a.getLsbD i = (s.a.getLsbD i && m.getLsbD i)) ∧
    ZeroNegativeOf t t.a ∧ t.flag .c = s.flag .c ∧ t.flag .v = s.flag .v

/-- R133: A, C, Z and N after the shift of A, the flags from the byte the profile names, the carry from bit `k` of the old A; V as it was. -/
def ShiftsAccumulator (prof : Profile) (k : Fin 8) (s t : State) : Prop :=
  t.a.toNat = 2 * s.a.toNat % 256 ∧ t.flag .c = s.a.getLsbD k ∧
    ZeroNegativeOf t (if prof = .reference then s.a else t.a) ∧ t.flag .v = s.flag .v

/-- R134: Z from A and `m`, N and V from bits 7 and 6 of `m`; A and C as they were. -/
def TestsBits (s t : State) (m : Byte) : Prop :=
  (t.flag .z = true ↔ ∀ i : Nat, (s.a.getLsbD i && m.getLsbD i) = false) ∧
    t.flag .n = m.getLsbD 7 ∧ t.flag .v = m.getLsbD 6 ∧ t.a = s.a ∧ t.flag .c = s.flag .c

/-- The displacement of a byte (R170). -/
def signedDisplacement (prof : Profile) (m : Byte) : Int :=
  if m.toNat < 128 then m.toNat
  else if prof = .reference then 128 - (m.toNat : Int) else (m.toNat : Int) - 256

/-- A, P and everything no instruction changes are as they were. -/
def OnlyControl (s t : State) : Prop := t.a = s.a ∧ t.p = s.p ∧ SameRest s t

/-- The outcome of a branch of this core (R171): two bytes on, then by the displacement if `cond`; 2 cycles either way; nothing else changes. -/
def Branches (cond : Bool) (s : State) (m : Byte) (o : Host.Outcome State Fault Refusal) : Prop :=
  ∃ t, o = .next t ∧ OnlyControl s t ∧ t.cyc = s.cyc + 2 ∧
    (t.pc.toNat : Int) =
      ((s.pc.toNat : Int) + 2 + (if cond then signedDisplacement .reference m else 0)) % 65536

/-- The outcome of a form of add with carry. -/
def AdcForm (s : State) (m : Byte) (len cost : Nat) (o : Host.Outcome State Fault Refusal) : Prop :=
  ∃ t, o = .next t ∧ AddsWithCarry s t m ∧ Advanced s t len cost ∧ SameRest s t

/-- The outcome of a form of bitwise AND. -/
def AndForm (s : State) (m : Byte) (len cost : Nat) (o : Host.Outcome State Fault Refusal) : Prop :=
  ∃ t, o = .next t ∧ AndsAccumulator s t m ∧ Advanced s t len cost ∧ SameRest s t

/-- The outcome of a form of the shift on this core: `PROFILE = REFERENCE`, `ASL_CARRY_BIT = 0`. -/
def AslForm (s : State) (len cost : Nat) (o : Host.Outcome State Fault Refusal) : Prop :=
  ∃ t, o = .next t ∧ ShiftsAccumulator .reference 0 s t ∧ Advanced s t len cost ∧ SameRest s t

/-- The outcome of a form of the bit test. -/
def BitForm (s : State) (m : Byte) (len cost : Nat) (o : Host.Outcome State Fault Refusal) : Prop :=
  ∃ t, o = .next t ∧ TestsBits s t m ∧ Advanced s t len cost ∧ SameRest s t

/-- The 32 opcodes of R64, in its order. -/
def legalOpcodes : List Byte :=
  [0x06#8, 0x0A#8, 0x0E#8, 0x10#8, 0x16#8, 0x1E#8, 0x21#8, 0x24#8] ++
  [0x25#8, 0x29#8, 0x2C#8, 0x2D#8, 0x30#8, 0x31#8, 0x35#8, 0x39#8] ++
  [0x3D#8, 0x50#8, 0x61#8, 0x65#8, 0x69#8, 0x6D#8, 0x70#8, 0x71#8] ++
  [0x75#8, 0x79#8, 0x7D#8, 0x90#8, 0xB0#8, 0xD0#8, 0xEA#8, 0xF0#8]

/-- The number of operand bytes of a mode (R60). -/
def modeWidth : Mode → Nat
  | .imp | .acc => 0
  | .imm | .zp | .zpx | .zpy | .inx | .iny | .rel => 1
  | .abs | .abx | .aby => 2

/-- Whether a mode makes the page check (R100). -/
def modeChecks : Mode → Bool
  | .imp | .acc | .rel => false
  | .imm | .zp | .zpx | .zpy | .inx | .iny | .abs | .abx | .aby => true

/-- The condition of a branch (R172 to R179); no other operation branches. -/
def branchTaken (op : Operation) (s : State) : Bool :=
  match op with
  | .bcc => !s.flag .c
  | .bcs => s.flag .c
  | .beq => s.flag .z
  | .bne => !s.flag .z
  | .bmi => s.flag .n
  | .bpl => !s.flag .n
  | .bvc => !s.flag .v
  | .bvs => s.flag .v
  | .adc | .and | .asl | .bit | .nop => false

/-- The eight branch operations. -/
def branchOperations : List Operation := [.bcc, .bcs, .beq, .bne, .bmi, .bpl, .bvc, .bvs]

/-- The instruction's operation may write A (R36). -/
def writesA : Instr → Bool
  | .adcImm _ | .adcZp _ | .adcZpx _ | .adcAbs _ | .adcAbx _ | .adcAby _ | .adcInx _ | .adcIny _ => true
  | .andImm _ | .andZp _ | .andZpx _ | .andAbs _ | .andAbx _ | .andAby _ | .andInx _ | .andIny _ => true
  | .aslAcc | .aslZp _ | .aslZpx _ | .aslAbs _ | .aslAbx _ => true
  | .bitZp _ | .bitAbs _ | .nop | .bcc _ | .bcs _ | .beq _ | .bne _ | .bmi _ | .bpl _ | .bvc _ | .bvs _ => false

/-- The instruction's operation may write C (R26, R36). -/
def writesC : Instr → Bool
  | .adcImm _ | .adcZp _ | .adcZpx _ | .adcAbs _ | .adcAbx _ | .adcAby _ | .adcInx _ | .adcIny _ => true
  | .andImm _ | .andZp _ | .andZpx _ | .andAbs _ | .andAbx _ | .andAby _ | .andInx _ | .andIny _ => false
  | .aslAcc | .aslZp _ | .aslZpx _ | .aslAbs _ | .aslAbx _ => true
  | .bitZp _ | .bitAbs _ | .nop | .bcc _ | .bcs _ | .beq _ | .bne _ | .bmi _ | .bpl _ | .bvc _ | .bvs _ => false

/-- The instruction's operation writes V (R26, R36). -/
def writesV : Instr → Bool
  | .bitZp _ | .bitAbs _ => true
  | .adcImm _ | .adcZp _ | .adcZpx _ | .adcAbs _ | .adcAbx _ | .adcAby _ | .adcInx _ | .adcIny _ => false
  | .andImm _ | .andZp _ | .andZpx _ | .andAbs _ | .andAbx _ | .andAby _ | .andInx _ | .andIny _ => false
  | .aslAcc | .aslZp _ | .aslZpx _ | .aslAbs _ | .aslAbx _ => false
  | .nop | .bcc _ | .bcs _ | .beq _ | .bne _ | .bmi _ | .bpl _ | .bvc _ | .bvs _ => false

/-- The instruction's operation writes Z and N (R26, R36). -/
def writesZN : Instr → Bool
  | .nop | .bcc _ | .bcs _ | .beq _ | .bne _ | .bmi _ | .bpl _ | .bvc _ | .bvs _ => false
  | .adcImm _ | .adcZp _ | .adcZpx _ | .adcAbs _ | .adcAbx _ | .adcAby _ | .adcInx _ | .adcIny _ => true
  | .andImm _ | .andZp _ | .andZpx _ | .andAbs _ | .andAbx _ | .andAby _ | .andInx _ | .andIny _ => true
  | .aslAcc | .aslZp _ | .aslZpx _ | .aslAbs _ | .aslAbx _ | .bitZp _ | .bitAbs _ => true

/-- The addresses the resolver reads in a mode, in order, as numbers: operand bytes low address first, pointer bytes low first, datum last (R102 to R113). Under REFERENCE an indirect mode reads its operand byte and then an open list (R58, log 6). -/
def modeReads (prof : Profile) (mode : Mode) (s : State) : List Nat :=
  let p1 := (s.pc.toNat + 1) % 65536
  let p2 := (s.pc.toNat + 2) % 65536
  let b0 := (byteAt s p1).toNat
  let ea := b0 + 256 * (byteAt s p2).toNat
  let zeroPage (i : Nat) := if prof = .reference then b0 + i else (b0 + i) % 256
  let pointer (p : Nat) := (byteAt s p).toNat + 256 * (byteAt s ((p + 1) % 256)).toNat
  match mode, prof with
  | .imp, _ | .acc, _ => []
  | .imm, _ | .rel, _ => [p1]
  | .zp, _ => [p1, b0]
  | .zpx, _ => [p1, zeroPage s.x.toNat]
  | .zpy, _ => [p1, zeroPage s.y.toNat]
  | .abs, _ => [p1, p2, ea]
  | .abx, _ => [p1, p2, (ea + s.x.toNat) % 65536]
  | .aby, _ => [p1, p2, (ea + s.y.toNat) % 65536]
  | .inx, .corrected =>
    let p := (b0 + s.x.toNat) % 256
    [p1, p, (p + 1) % 256, pointer p]
  | .iny, .corrected => [p1, b0, (b0 + 1) % 256, (pointer b0 + s.y.toNat) % 65536]
  | .inx, .reference =>
    p1 :: (Config.indirectRefReads .inx (byteAt s p1) s.x (readByte s)).map BitVec.toNat
  | .iny, .reference =>
    p1 :: (Config.indirectRefReads .iny (byteAt s p1) s.y (readByte s)).map BitVec.toNat

/-- `exec` of the instruction completes at that cost. -/
def Costs (i : Instr) (s : State) (n : Nat) : Prop := ∃ t, exec i s = .next t ∧ t.cyc = s.cyc + n

/-- The six forms whose default timing entry has a penalty (R192, R194). -/
def hasPenalty : Instr → Bool
  | .adcAbx _ | .adcAby _ | .andAbx _ | .andAby _ | .adcIny _ | .andIny _ => true
  | .adcImm _ | .adcZp _ | .adcZpx _ | .adcAbs _ | .adcInx _ => false
  | .andImm _ | .andZp _ | .andZpx _ | .andAbs _ | .andInx _ => false
  | .aslAcc | .aslZp _ | .aslZpx _ | .aslAbs _ | .aslAbx _ | .bitZp _ | .bitAbs _ => false
  | .nop | .bcc _ | .bcs _ | .beq _ | .bne _ | .bmi _ | .bpl _ | .bvc _ | .bvs _ => false

end Sys2Proof.Claims

open Sys2Proof Sys2Proof.Machine Sys2Proof.Claims

/-- R131, `Execute(ADC, m)`: the handler completes with the new A, C, Z and N, V as it was, and PC, CYC and the rest as the commit left them. -/
def Obligations.AddWithCarryHandler : Prop :=
  ∀ (prof : Profile) (k : Fin 8) (m : Byte) (s : State),
    ∃ t, execute prof k .adc (some m) s = .next t ∧ AddsWithCarry s t m ∧
      t.pc = s.pc ∧ t.cyc = s.cyc ∧ SameRest s t

/-- R132, `Execute(AND, m)`. -/
def Obligations.BitwiseAndHandler : Prop :=
  ∀ (prof : Profile) (k : Fin 8) (m : Byte) (s : State),
    ∃ t, execute prof k .and (some m) s = .next t ∧ AndsAccumulator s t m ∧
      t.pc = s.pc ∧ t.cyc = s.cyc ∧ SameRest s t

/-- R133, `Execute(ASL, m)` under both profiles and every `ASL_CARRY_BIT`, whatever operand it is handed. The value 0 of the parameter (log 12) and the profile (log 1) are arguments here. -/
def Obligations.ShiftHandlerBothProfiles : Prop :=
  ∀ (prof : Profile) (k : Fin 8) (m : Option Byte) (s : State),
    ∃ t, execute prof k .asl m s = .next t ∧ ShiftsAccumulator prof k s t ∧
      t.pc = s.pc ∧ t.cyc = s.cyc ∧ SameRest s t

/-- R134, `Execute(BIT, m)`, and that it is the only operation that writes V. -/
def Obligations.BitTestHandler : Prop :=
  (∀ (prof : Profile) (k : Fin 8) (m : Byte) (s : State),
    ∃ t, execute prof k .bit (some m) s = .next t ∧ TestsBits s t m ∧
      t.pc = s.pc ∧ t.cyc = s.cyc ∧ SameRest s t) ∧
  ∀ (prof : Profile) (k : Fin 8) (op : Operation) (m : Option Byte) (s t : State),
    op ≠ .bit → execute prof k op m s = .next t → t.flag .v = s.flag .v

/-- R135: no-operation changes PC and CYC only, by one and by the base cost it is given. -/
def Obligations.NoOperationOnlyAdvances : Prop :=
  ∀ (prof : Profile) (k : Fin 8) (base pen : Nat) (s : State),
    ∃ t, complete prof k .nop (resolve prof .imp s) base pen s = .next t ∧
      OnlyControl s t ∧ Advanced s t 1 base

/-- R170: the three lines of `Disp`, as the handler computes them. -/
def Obligations.DisplacementReading : Prop :=
  ∀ (prof : Profile) (m : Byte),
    displacement prof m = signedDisplacement prof m ∧
      -127 - (if prof = .corrected then 1 else 0) ≤ displacement prof m ∧ displacement prof m ≤ 127

/-- The branch of 43_branches.md sections 1 and 2 (R170 to R179), with the conditions of the eight branches, for any base cost, penalty and profile: the byte after the opcode is the displacement, PC is two on, then moved if the condition holds; the cost is the base, taken or not, never the penalty (decision D18, log 18); no other state changes. -/
def Obligations.BranchOperationBothProfiles : Prop :=
  ∀ (prof : Profile) (k : Fin 8) (op : Operation) (base pen : Nat) (s : State),
    op ∈ branchOperations →
    ∃ t, complete prof k op (resolve prof .rel s) base pen s = .next t ∧ OnlyControl s t ∧
      t.cyc = s.cyc + base ∧
      (t.pc.toNat : Int) = ((s.pc.toNat : Int) + 2 +
        (if branchTaken op s then
          signedDisplacement prof (byteAt s ((s.pc.toNat + 1) % 65536)) else 0)) % 65536

/-- The profiles' readings of a displacement byte agree exactly on 0 to 127 and at 0xC0 (43_branches.md, the remark R170 marks as derived). -/
def Obligations.DisplacementsAgreeExactly : Prop :=
  ∀ m : Byte, displacement .reference m = displacement .corrected m ↔ m.toNat < 128 ∨ m = 0xC0#8

/-- The six forms of add with carry whose operand the spec gives, each with its operand, length and cost. The costs are the default timing entries (log 4), the penalty by the check from the address after the opcode byte (log 15); the zero-page,X sum is the REFERENCE one (log 1). -/
def Obligations.AdcDirectFormsResult : Prop :=
  ∀ (s : State) (b : Byte) (addr : Addr),
    AdcForm s b 2 2 (exec (.adcImm b) s) ∧
    AdcForm s (byteAt s b.toNat) 2 3 (exec (.adcZp b) s) ∧
    AdcForm s (byteAt s (b.toNat + s.x.toNat)) 2 4 (exec (.adcZpx b) s) ∧
    AdcForm s (byteAt s addr.toNat) 3 4 (exec (.adcAbs addr) s) ∧
    AdcForm s (byteAt s ((addr.toNat + s.x.toNat) % 65536)) 3 (4 + pagePenalty s 2)
      (exec (.adcAbx addr) s) ∧
    AdcForm s (byteAt s ((addr.toNat + s.y.toNat) % 65536)) 3 (4 + pagePenalty s 2)
      (exec (.adcAby addr) s)

/-- The indirect forms of add with carry complete, whatever the open operand is (log 5): everything else is as U2 of 93_implementation_defined.md lists it. Costs: log 4, the page check of indirect,Y: log 15. -/
def Obligations.AdcIndirectFormsResult : Prop :=
  ∀ (s : State) (b : Byte),
    AdcForm s (Config.indirectRef .inx b s.x (readByte s)) 2 6 (exec (.adcInx b) s) ∧
    AdcForm s (Config.indirectRef .iny b s.y (readByte s)) 2 (5 + pagePenalty s 1)
      (exec (.adcIny b) s)

/-- The six forms of bitwise AND whose operand the spec gives (costs: log 4; page check of the indexed forms: log 15; zero-page,X: log 1). -/
def Obligations.AndDirectFormsResult : Prop :=
  ∀ (s : State) (b : Byte) (addr : Addr),
    AndForm s b 2 2 (exec (.andImm b) s) ∧
    AndForm s (byteAt s b.toNat) 2 3 (exec (.andZp b) s) ∧
    AndForm s (byteAt s (b.toNat + s.x.toNat)) 2 4 (exec (.andZpx b) s) ∧
    AndForm s (byteAt s addr.toNat) 3 4 (exec (.andAbs addr) s) ∧
    AndForm s (byteAt s ((addr.toNat + s.x.toNat) % 65536)) 3 (4 + pagePenalty s 2)
      (exec (.andAbx addr) s) ∧
    AndForm s (byteAt s ((addr.toNat + s.y.toNat) % 65536)) 3 (4 + pagePenalty s 2)
      (exec (.andAby addr) s)

/-- The indirect forms of bitwise AND complete, whatever the open operand is (log 5). Costs: log 4, the page check of indirect,Y: log 15. -/
def Obligations.AndIndirectFormsResult : Prop :=
  ∀ (s : State) (b : Byte),
    AndForm s (Config.indirectRef .inx b s.x (readByte s)) 2 6 (exec (.andInx b) s) ∧
    AndForm s (Config.indirectRef .iny b s.y (readByte s)) 2 (5 + pagePenalty s 1)
      (exec (.andIny b) s)

/-- The five forms of the shift: all shift the accumulator and write no memory (log 17); flags from the old value (log 1), carry from bit 0 (log 12), costs of log 4. -/
def Obligations.AslFormsResult : Prop :=
  ∀ (s : State) (b : Byte) (addr : Addr),
    AslForm s 1 2 (exec .aslAcc s) ∧
    AslForm s 2 5 (exec (.aslZp b) s) ∧
    AslForm s 2 6 (exec (.aslZpx b) s) ∧
    AslForm s 3 6 (exec (.aslAbs addr) s) ∧
    AslForm s 3 7 (exec (.aslAbx addr) s)

/-- The two forms of the bit test (costs: log 4). -/
def Obligations.BitFormsResult : Prop :=
  ∀ (s : State) (b : Byte) (addr : Addr),
    BitForm s (byteAt s b.toNat) 2 3 (exec (.bitZp b) s) ∧
    BitForm s (byteAt s addr.toNat) 3 4 (exec (.bitAbs addr) s)

/-- No-operation: PC by one, CYC by two, nothing else (cost shown by the source, R70). -/
def Obligations.NopResult : Prop :=
  ∀ s : State, ∃ t, exec .nop s = .next t ∧ OnlyControl s t ∧ Advanced s t 1 2

/-- The eight branches of this core, taken or not (REFERENCE displacement: log 1; cost: log 4, log 18). -/
def Obligations.BranchFormsResult : Prop :=
  ∀ (s : State) (m : Byte),
    Branches (!s.flag .c) s m (exec (.bcc m) s) ∧ Branches (s.flag .c) s m (exec (.bcs m) s) ∧
    Branches (s.flag .z) s m (exec (.beq m) s) ∧ Branches (!s.flag .z) s m (exec (.bne m) s) ∧
    Branches (s.flag .n) s m (exec (.bmi m) s) ∧ Branches (!s.flag .n) s m (exec (.bpl m) s) ∧
    Branches (!s.flag .v) s m (exec (.bvc m) s) ∧ Branches (s.flag .v) s m (exec (.bvs m) s)

/-- The frame of every instruction, the write columns of the access matrix: registers, flags, bits 5:2 of P and memory outside what the operation writes are as they were. -/
def Obligations.AccessMatrixFrame : Prop :=
  ∀ (i : Instr) (s t : State), exec i s = .next t →
    SameRest s t ∧ (writesA i = false → t.a = s.a) ∧ (writesC i = false → t.flag .c = s.flag .c) ∧
      (writesV i = false → t.flag .v = s.flag .v) ∧
      (writesZN i = false → t.flag .z = s.flag .z ∧ t.flag .n = s.flag .n)

/-- R28: which operations write which flags, and from which byte. -/
def Obligations.FlagsFromOneByte : Prop :=
  ∀ (prof : Profile) (k : Fin 8) (op : Operation) (m : Option Byte) (s t : State),
    execute prof k op m s = .next t →
      (op ≠ .adc → op ≠ .asl → t.flag .c = s.flag .c) ∧
      (op ≠ .bit → t.flag .v = s.flag .v) ∧
      (op = .adc ∨ op = .and → ZeroNegativeOf t t.a) ∧
      (op = .asl → ZeroNegativeOf t (if prof = .reference then s.a else t.a)) ∧
      (op = .bit → ∃ b, m = some b ∧
        (t.flag .z = true ↔ (s.a &&& b).toNat = 0) ∧ (t.flag .n = true ↔ 128 ≤ b.toNat)) ∧
      (op = .nop ∨ op ∈ branchOperations → t.flag .z = s.flag .z ∧ t.flag .n = s.flag .n)

/-- R27: reading a flag is one bit of P; writing it changes that bit and no other. -/
def Obligations.FlagAccessOneBit : Prop :=
  (flagBit .c = 0 ∧ flagBit .z = 1 ∧ flagBit .v = 6 ∧ flagBit .n = 7) ∧
  ∀ (p : Byte) (f : Flag) (v : Bool),
    (readFlag p f = true ↔ p.toNat / 2 ^ flagBit f % 2 = 1) ∧
    ∀ i : Nat, (writeFlag p f v).getLsbD i = if i = flagBit f then v else p.getLsbD i

/-- The bytes at PC, PC + 1 and PC + 2, wrapping at the top of memory, decode to a well-formed instruction: the step is that instruction's `exec` and nothing else. -/
def Obligations.StepRunsDecodedInstruction : Prop :=
  ∀ (s : State) (i : Instr) (rest : List Byte),
    decode [byteAt s s.pc.toNat, byteAt s ((s.pc.toNat + 1) % 65536),
      byteAt s ((s.pc.toNat + 2) % 65536)] = .instr i rest →
    i.wellFormed = true → step s = exec i s

/-- Every step completes, or faults with `IllegalOpcode` carrying the opcode byte and its address; it faults exactly on the bytes outside the 32 of R64 (log 4), and never answers anything else. That the indirect forms complete under REFERENCE is the model's choice (log 5), where the spec recommends a refusal (D8). -/
def Obligations.StepCompletesOrIllegalOpcode : Prop :=
  ∀ s : State,
    (readByte s s.pc ∈ legalOpcodes → ∃ t, step s = .next t) ∧
    (readByte s s.pc ∉ legalOpcodes → step s = .fault (.illegalOpcode (readByte s s.pc) s.pc))

/-- The step of this core, by decoding and one meaning per form, is the table-driven step of R80 under its configuration (tables: log 4), the one the host's `step` takes. -/
def Obligations.StepRefinesTableStep : Prop :=
  ∀ s : State, step s = tableStep machineConfig s ∧ hostAct machineConfig .step s = settleOutcome s (step s)

/-- The three lookups of the step fail in the order operation, mode, timing table, each with its own fault carrying the opcode byte and its address, and the host finds no state changed. -/
def Obligations.TableFaultsInOrder : Prop :=
  ∀ (c : Config) (s : State),
    (c.opTable.lookup (readByte s s.pc) = none →
      tableStep c s = .fault (.illegalOpcode (readByte s s.pc) s.pc)) ∧
    (c.opTable.lookup (readByte s s.pc) ≠ none → c.modeTable.lookup (readByte s s.pc) = none →
      tableStep c s = .fault (.illegalAddressingMode (readByte s s.pc) s.pc)) ∧
    (c.opTable.lookup (readByte s s.pc) ≠ none → c.modeTable.lookup (readByte s s.pc) ≠ none →
      c.timeTable.lookup (readByte s s.pc) = none →
      tableStep c s = .fault (.illegalTiming (readByte s s.pc) s.pc))

/-- Under a well-formed configuration (R65, U15) the table-driven step completes or faults with `IllegalOpcode`, and completes exactly when the operation table has the opcode. That the indirect modes complete under REFERENCE is the model's choice (log 5), where the spec recommends a refusal (D8). -/
def Obligations.WellFormedTablesNeverFailLater : Prop :=
  ∀ (c : Config) (s : State), c.wellFormed = true →
    (c.opTable.lookup (readByte s s.pc) ≠ none → ∃ t, tableStep c s = .next t) ∧
    (c.opTable.lookup (readByte s s.pc) = none →
      tableStep c s = .fault (.illegalOpcode (readByte s s.pc) s.pc))

/-- The configuration of this core is well formed: complete tables (R65), no implied operand where one is needed (U15), the four flags clear at reset (R232). -/
def Obligations.MachineConfigWellFormed : Prop :=
  machineConfig.wellFormed = true ∧ Config.domain machineConfig.opTable = Config.domain machineConfig.modeTable ∧
    Config.domain machineConfig.modeTable = Config.domain machineConfig.timeTable ∧
    machineConfig.opTable.length = 32

/-- R85, for any configuration: a completed step has PC past the instruction, `1 + n` bytes on, and a taken branch its displacement further; all modulo 65536. -/
def Obligations.ProgramCounterCommit : Prop :=
  ∀ (c : Config) (s t : State), tableStep c s = .next t →
    ∃ op mode, c.opTable.lookup (readByte s s.pc) = some op ∧
      c.modeTable.lookup (readByte s s.pc) = some mode ∧
      (branchTaken op s = false → t.pc.toNat = (s.pc.toNat + 1 + modeWidth mode) % 65536) ∧
      (branchTaken op s = true → ∃ b, (resolve c.profile mode s).m = some b ∧
        (t.pc.toNat : Int) = ((s.pc.toNat : Int) + 1 + modeWidth mode +
          signedDisplacement c.profile b) % 65536)

/-- R191, for any configuration: a completed step costs the base, and the penalty when the resolver reports a page crossing; taken or not, whatever the operand. -/
def Obligations.StepCost : Prop :=
  ∀ (c : Config) (s t : State), tableStep c s = .next t →
    ∃ mode tm, c.modeTable.lookup (readByte s s.pc) = some mode ∧
      c.timeTable.lookup (readByte s s.pc) = some tm ∧
      t.cyc = s.cyc + tm.base + (if (resolve c.profile mode s).crossed = true then tm.pen else 0)

/-- What a completed step changes at most, for any configuration: PC, CYC, A and the four flags; and CYC strictly increases when every base is at least 1 (40_step_dispatch.md, R90, marked there as derived). -/
def Obligations.CompletedStepChangesAtMost : Prop :=
  ∀ (c : Config) (s t : State), tableStep c s = .next t →
    SameRest s t ∧ t.mem = s.mem ∧
      ((∀ row ∈ c.timeTable, 1 ≤ row.2.base) → s.cyc < t.cyc)

/-- The operands of the direct modes: `(m, n, crossed)` of R102 to R105, R108 to R110 and R113, read at the addresses those rules give. -/
def Obligations.ResolverDirectModes : Prop :=
  ∀ (prof : Profile) (s : State),
    let p1 := (s.pc.toNat + 1) % 65536
    let b0 := (byteAt s p1).toNat
    let ea := b0 + 256 * (byteAt s ((p1 + 1) % 65536)).toNat
    let one := decide (256 ≤ p1 % 256 + 1)
    let two := decide (256 ≤ p1 % 256 + 2)
    resolve prof .imp s = ⟨none, 0, false⟩ ∧
    resolve prof .acc s = ⟨some s.a, 0, false⟩ ∧
    resolve prof .imm s = ⟨some (byteAt s p1), 1, one⟩ ∧
    resolve prof .zp s = ⟨some (byteAt s b0), 1, one⟩ ∧
    resolve prof .abs s = ⟨some (byteAt s ea), 2, two⟩ ∧
    resolve prof .abx s = ⟨some (byteAt s ((ea + s.x.toNat) % 65536)), 2, two⟩ ∧
    resolve prof .aby s = ⟨some (byteAt s ((ea + s.y.toNat) % 65536)), 2, two⟩ ∧
    resolve prof .rel s = ⟨some (byteAt s p1), 1, false⟩

/-- R106 and R107: the index sum leaves the zero page under REFERENCE and wraps within it under CORRECTED. -/
def Obligations.ResolverZeroPageIndexed : Prop :=
  ∀ s : State,
    let p1 := (s.pc.toNat + 1) % 65536
    let b0 := (byteAt s p1).toNat
    let one := decide (256 ≤ p1 % 256 + 1)
    resolve .reference .zpx s = ⟨some (byteAt s (b0 + s.x.toNat)), 1, one⟩ ∧
    resolve .corrected .zpx s = ⟨some (byteAt s ((b0 + s.x.toNat) % 256)), 1, one⟩ ∧
    resolve .reference .zpy s = ⟨some (byteAt s (b0 + s.y.toNat)), 1, one⟩ ∧
    resolve .corrected .zpy s = ⟨some (byteAt s ((b0 + s.y.toNat) % 256)), 1, one⟩

/-- The indirect modes: under REFERENCE the open function of the mode, the operand byte, the index and memory (log 5), under CORRECTED the pointers of 41_addressing_modes.md section 5, which the spec marks as general knowledge. -/
def Obligations.ResolverIndirectModes : Prop :=
  ∀ s : State,
    let p1 := (s.pc.toNat + 1) % 65536
    let b0 := byteAt s p1
    let one := decide (256 ≤ p1 % 256 + 1)
    let p := (b0.toNat + s.x.toNat) % 256
    let px := (byteAt s p).toNat + 256 * (byteAt s ((p + 1) % 256)).toNat
    let py := (byteAt s b0.toNat).toNat + 256 * (byteAt s ((b0.toNat + 1) % 256)).toNat
    resolve .reference .inx s = ⟨some (Config.indirectRef .inx b0 s.x (readByte s)), 1, one⟩ ∧
    resolve .reference .iny s = ⟨some (Config.indirectRef .iny b0 s.y (readByte s)), 1, one⟩ ∧
    resolve .corrected .inx s = ⟨some (byteAt s px), 1, one⟩ ∧
    resolve .corrected .iny s = ⟨some (byteAt s ((py + s.y.toNat) % 65536)), 1, one⟩

/-- Each mode's operand width and page report; the report is that the address after the operand bytes lies in another page: for one byte at offset 0xFF, for two at 0xFE or 0xFF (which address it starts from is decision D26, log 15). -/
def Obligations.PageReportMeansNextPage : Prop :=
  (∀ (prof : Profile) (mode : Mode) (s : State),
    (resolve prof mode s).n = modeWidth mode ∧
    ((resolve prof mode s).crossed = true ↔
      modeChecks mode = true ∧ 256 ≤ (s.pc.toNat + 1) % 256 + modeWidth mode)) ∧
  ∀ a : Addr,
    (crossedPage a 1 = true ↔ highByte (a + 1#16) ≠ highByte a) ∧
    (crossedPage a 2 = true ↔ highByte (a + 2#16) ≠ highByte a) ∧
    (crossedPage a 1 = true ↔ lowByte a = 0xFF#8) ∧
    (crossedPage a 2 = true ↔ lowByte a = 0xFE#8 ∨ lowByte a = 0xFF#8)

/-- The memory reads of one step in order, in every mode under both profiles (R48): the opcode byte, then what the mode reads; the opcode byte only when the operation table lacks it or it has no mode. Under REFERENCE the indirect modes read the opcode byte, the operand byte and then an open list (log 6). The order inside the resolver is decision D23 (log 14). -/
def Obligations.ReadsOfOneStep : Prop :=
  ∀ (c : Config) (s : State),
    (c.opTable.lookup (readByte s s.pc) = none ∨ c.modeTable.lookup (readByte s s.pc) = none →
      stepReads c s = [s.pc]) ∧
    ∀ mode : Mode, c.opTable.lookup (readByte s s.pc) ≠ none →
      c.modeTable.lookup (readByte s s.pc) = some mode →
      (stepReads c s).map BitVec.toNat = s.pc.toNat :: modeReads c.profile mode s

/-- R230: reset gives every piece of state its value, `P` and `PC` from the parameters, whatever the state before; memory reads 0 everywhere. -/
def Obligations.ResetAssignsAllState : Prop :=
  (∀ (c : Config),
    (resetOf c).a = 0#8 ∧ (resetOf c).x = 0#8 ∧ (resetOf c).y = 0#8 ∧ (resetOf c).sp = 0#8 ∧
    (resetOf c).p = c.flagsReset ∧ (resetOf c).pc = c.entry ∧ (resetOf c).cyc = 0 ∧
    (∀ a : Addr, readByte (resetOf c) a = 0#8) ∧
    ∀ s : State, hostAct c .reset s = (resetOf c, .done)) ∧
  State.reset = resetOf machineConfig

/-- R231: construction succeeds exactly for entry addresses inside memory, with a core whose `ENTRY` is that address for good: it has been reset, and every later reset gives PC that address again. The other parameters are those it was given. -/
def Obligations.ConstructionChecksEntry : Prop :=
  ∀ (c : Config) (e : Nat),
    (e ≤ 65535 → ∃ k, construct c e = .next k ∧ k.config.entry.toNat = e ∧
      k.config = { c with entry := k.config.entry } ∧ k.state = resetOf k.config ∧
      k.state.pc.toNat = e ∧ ∀ s : State, hostAct k.config .reset s = (k.state, .done)) ∧
    (65535 < e → construct c e = .fault .invalidEntryAddress)

/-- The invariant holds at reset. It rests on the value of FLAGS_RESET in no way (log 3). -/
def Obligations.ResetMeetsInvariant : Prop := State.reset.Inv

/-- Every step keeps the invariant: memory stays in canonical form and bits 5:2 of P stay what reset made them. -/
def Obligations.StepKeepsInvariant : Prop :=
  ∀ s t : State, s.Inv → step s = .next t → t.Inv

/-- Every action of the host, on a core of any configuration, keeps memory in canonical form, so equal memories are equal data. -/
def Obligations.HostActionsKeepCanonicalMemory : Prop :=
  ∀ (c : Config) (h : HostAction) (s : State), Memory.wf s.mem = true → Memory.wf (hostAct c h s).1.mem = true

/-- Memories in canonical form that read the same at every address are the same data. -/
def Obligations.CanonicalMemoryIsUnique : Prop :=
  ∀ m n : Memory, Memory.wf m = true → Memory.wf n = true →
    (∀ a : Addr, Memory.read m a.toNat = Memory.read n a.toNat) → m = n

/-- The first step of a core with the default tables (log 4), nothing loaded, raises `IllegalOpcode(0x00, ENTRY)` and changes nothing, whatever its entry address (70_reset_and_hazards.md, R242, marked there as derived); so does the step from `State.reset` at the model's own `ENTRY` (log 2). -/
def Obligations.UnloadedCoreFaults : Prop :=
  (∀ e : Nat, e ≤ 65535 → ∃ k, construct machineConfig e = .next k ∧ k.config.entry.toNat = e ∧
    hostAct k.config .step k.state = (k.state, .faulted (.illegalOpcode 0x00#8 k.config.entry))) ∧
  step State.reset = .fault (.illegalOpcode 0x00#8 Params.entry)

/-- A faulting step of a core of any configuration changes no state and, repeated, faults again in the same way, with one of the three step faults carrying the opcode byte and its address (D6; the repetition is marked as derived in 60_exceptions.md, R221; log 9). -/
def Obligations.FaultIsPreciseAndRepeats : Prop :=
  ∀ (c : Config) (s : State) (f : Fault), (hostAct c .step s).2 = .faulted f →
    (hostAct c .step s).1 = s ∧ hostAct c .step (hostAct c .step s).1 = (s, .faulted f) ∧
      (f = .illegalOpcode (readByte s s.pc) s.pc ∨ f = .illegalAddressingMode (readByte s s.pc) s.pc ∨
        f = .illegalTiming (readByte s s.pc) s.pc)

/-- R234: `load_bytes` copies the data to its place and touches nothing else, or raises `OutOfBounds` and writes no byte. -/
def Obligations.LoadBytesContract : Prop :=
  ∀ (c : Config) (data : List Byte) (offset : Nat) (s : State), Memory.wf s.mem = true →
    (65536 < offset + data.length →
      hostAct c (.load data offset) s = (s, .faulted .outOfBounds)) ∧
    (offset + data.length ≤ 65536 →
      ∃ t, loadBytes data offset s = .next t ∧ hostAct c (.load data offset) s = (t, .done) ∧
        (∀ (i : Nat) (h : i < data.length), byteAt t (offset + i) = data[i]) ∧
        (∀ a : Nat, a < offset ∨ offset + data.length ≤ a → byteAt t a = byteAt s a) ∧
        t.a = s.a ∧ t.x = s.x ∧ t.y = s.y ∧ t.sp = s.sp ∧ t.pc = s.pc ∧ t.p = s.p ∧ t.cyc = s.cyc)

/-- A byte the host writes is read back, and no other byte and no register changes (host writes are decision D10, log 16). -/
def Obligations.HostWriteByte : Prop :=
  ∀ (c : Config) (a : Addr) (v : Byte) (s : State), Memory.wf s.mem = true →
    readByte (hostAct c (.setMem a v) s).1 a = v ∧
    (∀ b : Addr, b ≠ a → readByte (hostAct c (.setMem a v) s).1 b = readByte s b) ∧
    (hostAct c (.setMem a v) s).1 = s.setMem (hostAct c (.setMem a v) s).1.mem

/-- A register or flag the host writes takes the value, and nothing else changes; CYC is not among them (host writes are decision D10, log 16). -/
def Obligations.HostRegisterWrites : Prop :=
  ∀ (c : Config) (s : State) (v : Byte) (w : Addr) (f : Flag) (b : Bool),
    hostAct c (.setA v) s = (⟨v, s.x, s.y, s.sp, s.pc, s.p, s.cyc, s.mem⟩, .done) ∧
    hostAct c (.setX v) s = (⟨s.a, v, s.y, s.sp, s.pc, s.p, s.cyc, s.mem⟩, .done) ∧
    hostAct c (.setY v) s = (⟨s.a, s.x, v, s.sp, s.pc, s.p, s.cyc, s.mem⟩, .done) ∧
    hostAct c (.setSp v) s = (⟨s.a, s.x, s.y, v, s.pc, s.p, s.cyc, s.mem⟩, .done) ∧
    hostAct c (.setPc w) s = (⟨s.a, s.x, s.y, s.sp, w, s.p, s.cyc, s.mem⟩, .done) ∧
    hostAct c (.setP v) s = (⟨s.a, s.x, s.y, s.sp, s.pc, v, s.cyc, s.mem⟩, .done) ∧
    (hostAct c (.setFlag f b) s).1 = s.setP (hostAct c (.setFlag f b) s).1.p ∧
    ∀ i : Nat, (hostAct c (.setFlag f b) s).1.p.getLsbD i = if i = flagBit f then b else s.p.getLsbD i

/-- Reading changes nothing and answers the current value of the register, flag, byte or counter named (R219). -/
def Obligations.IntrospectionChangesNothing : Prop :=
  ∀ (c : Config) (q : Query) (s : State),
    hostAct c (.read q) s = (s, .value (answer q s)) ∧
    answer .a s = s.a.toNat ∧ answer .x s = s.x.toNat ∧ answer .y s = s.y.toNat ∧
    answer .sp s = s.sp.toNat ∧ answer .pc s = s.pc.toNat ∧ answer .p s = s.p.toNat ∧
    answer .cyc s = s.cyc ∧ (∀ f, answer (.flag f) s = s.p.toNat / 2 ^ flagBit f % 2) ∧
    ∀ a : Addr, answer (.mem a) s = (byteAt s a.toNat).toNat

/-- Decoding an encoded instruction gives it back, with every operand at every value and any bytes after it. -/
def Obligations.DecodeEncodeRoundTrip : Prop :=
  ∀ (i : Instr) (rest : List Byte), decode (encode i ++ rest) = .instr i rest

/-- Every decoded instruction's encoding is the bytes it was decoded from: no encoding has a second reading. -/
def Obligations.EncodeDecodeRoundTrip : Prop :=
  ∀ (bytes : List Byte) (i : Instr) (rest : List Byte),
    decode bytes = .instr i rest → bytes = encode i ++ rest

/-- An opcode byte followed by two operand bytes decodes exactly when it is one of the 32 of R64, and otherwise is refused as illegal by name (opcode bytes: log 4). -/
def Obligations.ExactlyTheTableDecodes : Prop :=
  ∀ op b0 b1 : Byte,
    (op ∈ legalOpcodes ↔ ∃ i rest, decode [op, b0, b1] = .instr i rest) ∧
    (op ∉ legalOpcodes ↔ decode [op, b0, b1] = .refused (.illegalOpcode op))

/-- Words written out from the encoding examples of 30_encoding.md section 5 decode to the instructions they stand for (opcode bytes: log 4). -/
def Obligations.WrittenWordsDecode : Prop :=
  decode [0xEA#8] = .instr .nop [] ∧ decode [0x0A#8] = .instr .aslAcc [] ∧
  decode [0x69#8, 0x05#8] = .instr (.adcImm 0x05#8) [] ∧
  decode [0x24#8, 0x10#8] = .instr (.bitZp 0x10#8) [] ∧
  decode [0x35#8, 0x10#8] = .instr (.andZpx 0x10#8) [] ∧
  decode [0x6D#8, 0x34#8, 0x12#8] = .instr (.adcAbs 0x1234#16) [] ∧
  decode [0x7D#8, 0x34#8, 0x12#8] = .instr (.adcAbx 0x1234#16) [] ∧
  decode [0x39#8, 0x34#8, 0x12#8] = .instr (.andAby 0x1234#16) [] ∧
  decode [0x61#8, 0x20#8] = .instr (.adcInx 0x20#8) [] ∧
  decode [0x71#8, 0x20#8] = .instr (.adcIny 0x20#8) [] ∧
  decode [0xD0#8, 0x05#8] = .instr (.bne 0x05#8) [] ∧
  decode [0x00#8, 0x05#8] = .refused (.illegalOpcode 0x00#8) ∧
  decode [0x6D#8, 0x34#8] = .refused (.truncated 0x6D#8)

/-- The two profiles give the same step wherever U1 of 93_implementation_defined.md says they agree: no shift, no zero-page index sum past 0xFF, no indirect mode, no taken branch with a byte of 128 or more other than 0xC0. -/
def Obligations.ProfilesAgreeOutsideFourPlaces : Prop :=
  ∀ (c : Config) (s : State),
    (∀ op mode, c.opTable.lookup (readByte s s.pc) = some op →
      c.modeTable.lookup (readByte s s.pc) = some mode →
      op ≠ .asl ∧ mode ≠ .inx ∧ mode ≠ .iny ∧
      (mode = .zpx → (byteAt s ((s.pc.toNat + 1) % 65536)).toNat + s.x.toNat < 256) ∧
      (mode = .zpy → (byteAt s ((s.pc.toNat + 1) % 65536)).toNat + s.y.toNat < 256) ∧
      (branchTaken op s = true → ∀ b, (resolve .reference mode s).m = some b →
        b.toNat < 128 ∨ b = 0xC0#8)) →
    tableStep { c with profile := .reference } s = tableStep { c with profile := .corrected } s

/-- The timing table never changes a result (44_timing.md, R196, marked there as derived): with another table that has the executed opcode, the step completes in the same state but for CYC. -/
def Obligations.ResultsIndependentOfTiming : Prop :=
  ∀ (c : Config) (table : List (Byte × Timing)) (s t : State),
    tableStep c s = .next t → table.lookup (readByte s s.pc) ≠ none →
    ∃ u, tableStep { c with timeTable := table } s = .next u ∧
      u.a = t.a ∧ u.x = t.x ∧ u.y = t.y ∧ u.sp = t.sp ∧ u.pc = t.pc ∧ u.p = t.p ∧ u.mem = t.mem

/-- Nothing reads CYC: two runs from states that differ in CYC alone end in states that differ in CYC alone, by the same amount. -/
def Obligations.CycleCounterIsNeverRead : Prop :=
  ∀ (n k : Nat) (s : State),
    afterSteps n (s.addCyc k) = (afterSteps n s).map (fun t => t.addCyc k)

/-- A run of completed steps leaves X, Y, SP, memory and bits 5:2 of P as they were and costs from 2 to 7 cycles a step (costs: log 4). -/
def Obligations.RunKeepsFrameAndChargesEveryStep : Prop :=
  ∀ (n : Nat) (s t : State), afterSteps n s = some t →
    SameRest s t ∧ t.mem = s.mem ∧ s.cyc + 2 * n ≤ t.cyc ∧ t.cyc ≤ s.cyc + 7 * n

/-- Only a bit test changes V, only add with carry and the shift change C, and only they and AND change A: from what a step did, the opcode it ran (opcode bytes: log 4). -/
def Obligations.ChangeNamesTheOpcode : Prop :=
  ∀ s t : State, step s = .next t →
    (t.flag .v ≠ s.flag .v → readByte s s.pc ∈ [0x24#8, 0x2C#8]) ∧
    (t.flag .c ≠ s.flag .c → readByte s s.pc ∈
      [0x69#8, 0x65#8, 0x75#8, 0x6D#8, 0x7D#8, 0x79#8, 0x61#8, 0x71#8, 0x0A#8, 0x06#8, 0x16#8, 0x0E#8, 0x1E#8]) ∧
    (t.a ≠ s.a → readByte s s.pc ∈
      [0x69#8, 0x65#8, 0x75#8, 0x6D#8, 0x7D#8, 0x79#8, 0x61#8, 0x71#8, 0x0A#8, 0x06#8, 0x16#8, 0x0E#8, 0x1E#8,
        0x29#8, 0x25#8, 0x35#8, 0x2D#8, 0x3D#8, 0x39#8, 0x21#8, 0x31#8])

/-- Where the penalty cycle is paid (R194): ADC and AND absolute,X and absolute,Y exactly when the opcode lies at offset 0xFD or 0xFE of its page, ADC and AND indirect,Y exactly at 0xFE; every other instruction, the shift's absolute,X form among them, costs the same wherever it lies (costs: log 4; the check's starting address is decision D26: log 15; the indirect forms complete: log 5). -/
def Obligations.PenaltyByPlaceOfOpcode : Prop :=
  (∀ (s : State) (addr : Addr) (b : Byte),
    let wide := if s.pc.toNat % 256 = 0xFD ∨ s.pc.toNat % 256 = 0xFE then 5 else 4
    let narrow := if s.pc.toNat % 256 = 0xFE then 6 else 5
    Costs (.adcAbx addr) s wide ∧ Costs (.adcAby addr) s wide ∧
    Costs (.andAbx addr) s wide ∧ Costs (.andAby addr) s wide ∧
    Costs (.adcIny b) s narrow ∧ Costs (.andIny b) s narrow) ∧
  ∀ i : Instr, hasPenalty i = false → ∃ n, ∀ s : State, Costs i s n
end

