-- ==== Sys2Proof/Laws/Flags.lean ====
section
/-! SUPPORT. The flags (spec/10_state.md R27, spec/42_alu_operations.md R130): what reading gives after writing, and that bits 5:2 of P stay. -/

namespace Sys2Proof.Machine

theorem readFlag_eq_bit (p : Byte) (f : Flag) : readFlag p f = p.getLsbD (flagBit f) := by
  revert p
  cases f <;> decide

/-- A flag write changes one bit (R27). -/
theorem writeFlag_bit (p : Byte) (f : Flag) (v : Bool) (i : Nat) :
    (writeFlag p f v).getLsbD i = if i = flagBit f then v else p.getLsbD i := by
  by_cases hi : i < 8
  · interval_cases i <;> cases f <;> cases v <;> revert p <;> decide
  · have hne : i ≠ flagBit f := by cases f <;> simp only [flagBit] <;> omega
    rw [if_neg hne, BitVec.getLsbD_of_ge _ _ (by omega), BitVec.getLsbD_of_ge _ _ (by omega)]

@[simp] theorem readFlag_writeFlag_same (p : Byte) (f : Flag) (v : Bool) :
    readFlag (writeFlag p f v) f = v := by
  rw [readFlag_eq_bit, writeFlag_bit, if_pos rfl]

theorem readFlag_writeFlag_other (p : Byte) {f g : Flag} (v : Bool) (h : g ≠ f) :
    readFlag (writeFlag p f v) g = readFlag p g := by
  rw [readFlag_eq_bit, writeFlag_bit, if_neg, readFlag_eq_bit]
  cases f <;> cases g <;> simp_all [flagBit]

@[simp] theorem readFlag_setZN_z (d p : Byte) : readFlag (setZN d p) .z = (d == 0#8) := by
  rw [setZN, readFlag_writeFlag_other _ _ (by decide), readFlag_writeFlag_same]

@[simp] theorem readFlag_setZN_n (d p : Byte) : readFlag (setZN d p) .n = d.getLsbD 7 := by
  rw [setZN, readFlag_writeFlag_same]

@[simp] theorem readFlag_setZN_c (d p : Byte) : readFlag (setZN d p) .c = readFlag p .c := by
  rw [setZN, readFlag_writeFlag_other _ _ (by decide), readFlag_writeFlag_other _ _ (by decide)]

@[simp] theorem readFlag_setZN_v (d p : Byte) : readFlag (setZN d p) .v = readFlag p .v := by
  rw [setZN, readFlag_writeFlag_other _ _ (by decide), readFlag_writeFlag_other _ _ (by decide)]

@[simp] theorem reservedBits_writeFlag (p : Byte) (f : Flag) (v : Bool) :
    reservedBits (writeFlag p f v) = reservedBits p := by
  revert p
  cases f <;> cases v <;> decide

@[simp] theorem reservedBits_setZN (d p : Byte) : reservedBits (setZN d p) = reservedBits p := by
  rw [setZN, reservedBits_writeFlag, reservedBits_writeFlag]

/-- P is its four flags and its bits 5:2. -/
theorem flags_ext {p q : Byte} (hc : readFlag p .c = readFlag q .c) (hz : readFlag p .z = readFlag q .z)
    (hv : readFlag p .v = readFlag q .v) (hn : readFlag p .n = readFlag q .n)
    (hr : reservedBits p = reservedBits q) : p = q := by
  simp only [readFlag_eq_bit, flagBit] at hc hz hv hn
  have bit (i : Nat) : (reservedBits p).getLsbD i = (reservedBits q).getLsbD i := by rw [hr]
  simp only [reservedBits, BitVec.getLsbD_and] at bit
  ext i hi
  rw [← BitVec.getLsbD_eq_getElem, ← BitVec.getLsbD_eq_getElem]
  have b2 := bit 2
  have b3 := bit 3
  have b4 := bit 4
  have b5 := bit 5
  simp at b2 b3 b4 b5
  interval_cases i <;> simp_all

end Sys2Proof.Machine
end

