-- ==== Sys2Proof/Laws/Memory.lean ====
section
/-! SUPPORT. The memory (spec/20_memory.md): a read after a write, and that every memory operation keeps the canonical form. -/

namespace Sys2Proof.Machine

@[simp] theorem Memory.wfFrom_nil (lo : Nat) : Memory.wfFrom lo [] = true := rfl

theorem Memory.wfFrom_cons (lo a : Nat) (b : Byte) (m : Memory) :
    Memory.wfFrom lo ((a, b) :: m) = true ↔
      lo ≤ a ∧ a < 65536 ∧ b ≠ 0#8 ∧ Memory.wfFrom (a + 1) m = true := by
  simp [Memory.wfFrom, and_assoc]

theorem Memory.wfFrom_of_le {m : Memory} {lo hi : Nat} (h : Memory.wfFrom hi m = true)
    (hle : lo ≤ hi) : Memory.wfFrom lo m = true := by
  cases m with
  | nil => rfl
  | cons c m =>
    rw [Memory.wfFrom_cons] at h ⊢
    exact ⟨hle.trans h.1, h.2⟩

theorem Memory.read_of_lt {m : Memory} {lo a : Nat} (h : Memory.wfFrom lo m = true) (ha : a < lo) :
    Memory.read m a = 0#8 := by
  induction m generalizing lo with
  | nil => rfl
  | cons c m ih =>
    obtain ⟨k, b⟩ := c
    rw [Memory.wfFrom_cons] at h
    have hne : k ≠ a := by omega
    simp only [Memory.read, hne, if_false]
    exact ih h.2.2.2 (by omega)

/-- A write leaves every other address as it was. -/
theorem Memory.read_write_other (m : Memory) {a b : Nat} (v : Byte) (h : b ≠ a) :
    Memory.read (Memory.write m a v) b = Memory.read m b := by
  have h' : a ≠ b := fun e => h e.symm
  induction m with
  | nil => simp only [Memory.write]; split <;> simp [Memory.read, h']
  | cons c m ih =>
    obtain ⟨k, w⟩ := c
    simp only [Memory.write]
    split
    · split <;> simp [Memory.read, h']
    · split
      · rename_i hk
        subst hk
        split <;> simp [Memory.read, h']
      · simp [Memory.read, ih]

/-- A read after a write to the same address gives the value written (R42). -/
theorem Memory.read_write_same_from {m : Memory} {lo : Nat} (a : Nat) (v : Byte)
    (hwf : Memory.wfFrom lo m = true) : Memory.read (Memory.write m a v) a = v := by
  induction m generalizing lo with
  | nil => simp only [Memory.write]; split <;> simp_all [Memory.read]
  | cons c m ih =>
    obtain ⟨k, w⟩ := c
    rw [Memory.wfFrom_cons] at hwf
    simp only [Memory.write]
    split
    · split
      · rename_i hlt hv
        have hne : k ≠ a := by omega
        simp only [Memory.read, hne, if_false, hv]
        exact Memory.read_of_lt hwf.2.2.2 (by omega)
      · simp [Memory.read]
    · split
      · split
        · rename_i hk hv
          rw [hv]
          exact Memory.read_of_lt hwf.2.2.2 (by omega)
        · simp [Memory.read]
      · rename_i hk
        have hne : k ≠ a := fun e => hk e.symm
        simp only [Memory.read, hne, if_false]
        exact ih hwf.2.2.2

theorem Memory.read_write_same {m : Memory} (a : Nat) (v : Byte) (hwf : Memory.wf m = true) :
    Memory.read (Memory.write m a v) a = v :=
  Memory.read_write_same_from a v hwf

theorem Memory.wfFrom_write {m : Memory} {lo a : Nat} (v : Byte) (hwf : Memory.wfFrom lo m = true)
    (hlo : lo ≤ a) (ha : a < 65536) : Memory.wfFrom lo (Memory.write m a v) = true := by
  induction m generalizing lo with
  | nil => simp only [Memory.write]; split <;> simp_all [Memory.wfFrom]
  | cons c m ih =>
    obtain ⟨k, w⟩ := c
    have hc := hwf
    rw [Memory.wfFrom_cons] at hc
    simp only [Memory.write]
    split
    · split
      · exact hwf
      · rename_i hlt hv
        rw [Memory.wfFrom_cons, Memory.wfFrom_cons]
        exact ⟨hlo, ha, hv, by omega, hc.2⟩
    · split
      · rename_i hk
        split
        · exact Memory.wfFrom_of_le hc.2.2.2 (by omega)
        · rename_i hv
          rw [Memory.wfFrom_cons]
          exact ⟨hlo, ha, hv, hk ▸ hc.2.2.2⟩
      · rw [Memory.wfFrom_cons]
        exact ⟨hc.1, hc.2.1, hc.2.2.1, ih hc.2.2.2 (by omega)⟩

/-- Storing a byte keeps the canonical form. -/
theorem Memory.wf_write {m : Memory} {a : Nat} (v : Byte) (hwf : Memory.wf m = true)
    (ha : a < 65536) : Memory.wf (Memory.write m a v) = true :=
  Memory.wfFrom_write v hwf (Nat.zero_le a) ha

/-- `MemWrite` keeps the canonical form. -/
theorem writeByte_wf {s : State} (a : Addr) (v : Byte) (h : Memory.wf s.mem = true) :
    Memory.wf (writeByte s a v).mem = true :=
  Memory.wf_write v h a.isLt

/-- Storing a list of bytes keeps the canonical form. -/
theorem storeBytes_wf {s : State} (a : Addr) (l : List Byte) (h : Memory.wf s.mem = true) :
    Memory.wf (storeBytes s a l).mem = true := by
  induction l generalizing s a with
  | nil => exact h
  | cons b l ih => exact ih _ (writeByte_wf a b h)

/-- The loading loop keeps the canonical form when it ends inside memory. -/
theorem loadLoop_wf {m : Memory} (offset : Nat) (data : List Byte) (h : Memory.wf m = true)
    (hend : offset + data.length ≤ 65536) : Memory.wf (loadLoop m offset data) = true := by
  induction data generalizing m offset with
  | nil => exact h
  | cons b data ih =>
    simp only [List.length_cons] at hend
    exact ih (offset + 1) (Memory.wf_write b h (by omega)) (by omega)

theorem reset_memory_wf : Memory.wf State.reset.mem = true := rfl

end Sys2Proof.Machine
end

