-- ==== Sys2Proof/Laws/Complete.lean ====
section
/-! SUPPORT. The resolver, the handlers and the end of a step: for each shared operation, one lemma that says what it can do and what it leaves alone. -/

namespace Sys2Proof.Machine

/-- What no handler touches (R36): X, Y, SP, CYC, memory and bits 5:2 of P. -/
structure KeepsRest (s t : State) : Prop where
  x : t.x = s.x
  y : t.y = s.y
  sp : t.sp = s.sp
  cyc : t.cyc = s.cyc
  mem : t.mem = s.mem
  reserved : reservedBits t.p = reservedBits s.p

theorem addWithCarry_keepsRest (m : Byte) (s : State) : KeepsRest s (addWithCarry m s) := by
  constructor <;> simp [addWithCarry]

theorem bitwiseAnd_keepsRest (m : Byte) (s : State) : KeepsRest s (bitwiseAnd m s) := by
  constructor <;> simp [bitwiseAnd]

theorem shiftLeft_keepsRest (prof : Profile) (k : Fin 8) (s : State) :
    KeepsRest s (shiftLeft prof k s) := by
  constructor <;> simp [shiftLeft]

theorem bitTest_keepsRest (m : Byte) (s : State) : KeepsRest s (bitTest m s) := by
  constructor <;> simp [bitTest]

theorem branchIf_keepsRest (prof : Profile) (cond : Bool) (m : Byte) (s : State) :
    KeepsRest s (branchIf prof cond m s) := by
  unfold branchIf
  split <;> constructor <;> simp

theorem branchIf_flags (prof : Profile) (cond : Bool) (m : Byte) (s : State) :
    (branchIf prof cond m s).a = s.a ∧ (branchIf prof cond m s).p = s.p := by
  unfold branchIf
  split <;> simp

/-- A handler that needs its byte completes exactly when it has one. -/
theorem withOperand_cases {m : Option Byte} {k : Byte → State} :
    (∃ b, m = some b ∧ withOperand m k = .next (k b)) ∨
      (m = none ∧ withOperand m k = .refused .operandMissing) := by
  cases m with
  | none => exact .inr ⟨rfl, rfl⟩
  | some b => exact .inl ⟨b, rfl, rfl⟩

theorem withOperand_next {m : Option Byte} {k : Byte → State} {t : State}
    (h : withOperand m k = .next t) : ∃ b, m = some b ∧ t = k b := by
  cases m with
  | none => cases h
  | some b => cases h; exact ⟨b, rfl, rfl⟩

/-- A completed handler leaves alone what R36 says none touches. -/
theorem execute_keepsRest {prof : Profile} {k : Fin 8} {op : Operation} {m : Option Byte}
    {s t : State} (h : execute prof k op m s = .next t) : KeepsRest s t := by
  cases op <;> simp only [execute] at h
  case adc => obtain ⟨b, -, rfl⟩ := withOperand_next h; exact addWithCarry_keepsRest b s
  case and => obtain ⟨b, -, rfl⟩ := withOperand_next h; exact bitwiseAnd_keepsRest b s
  case asl => cases h; exact shiftLeft_keepsRest prof k s
  case bit => obtain ⟨b, -, rfl⟩ := withOperand_next h; exact bitTest_keepsRest b s
  case nop => cases h; constructor <;> rfl
  all_goals
    obtain ⟨b, -, rfl⟩ := withOperand_next h
    exact branchIf_keepsRest _ _ _ _

/-- A handler cannot fault (R87). -/
theorem execute_ne_fault (prof : Profile) (k : Fin 8) (op : Operation) (m : Option Byte) (s : State)
    (f : Fault) : execute prof k op m s ≠ .fault f := by
  cases op <;> cases m <;> simp [execute, withOperand]

/-- A handler that is handed a byte completes (R87). -/
theorem execute_some_completes (prof : Profile) (k : Fin 8) (op : Operation) (b : Byte) (s : State) :
    ∃ t, execute prof k op (some b) s = .next t := by
  cases op <;> exact ⟨_, rfl⟩

/-- The whole effect of a commit (R85, R86). -/
theorem commit_fields (n k : Nat) (s : State) :
    (commit n k s).pc = pc1 s + BitVec.ofNat 16 n ∧ (commit n k s).cyc = s.cyc + k ∧
      (commit n k s).a = s.a ∧ (commit n k s).x = s.x ∧ (commit n k s).y = s.y ∧
      (commit n k s).sp = s.sp ∧ (commit n k s).p = s.p ∧ (commit n k s).mem = s.mem := by
  simp [commit]

@[simp] theorem commit_pc (n k : Nat) (s : State) : (commit n k s).pc = pc1 s + BitVec.ofNat 16 n := rfl
@[simp] theorem commit_cyc (n k : Nat) (s : State) : (commit n k s).cyc = s.cyc + k := rfl
@[simp] theorem commit_a (n k : Nat) (s : State) : (commit n k s).a = s.a := rfl
@[simp] theorem commit_x (n k : Nat) (s : State) : (commit n k s).x = s.x := rfl
@[simp] theorem commit_y (n k : Nat) (s : State) : (commit n k s).y = s.y := rfl
@[simp] theorem commit_sp (n k : Nat) (s : State) : (commit n k s).sp = s.sp := rfl
@[simp] theorem commit_p (n k : Nat) (s : State) : (commit n k s).p = s.p := rfl
@[simp] theorem commit_mem (n k : Nat) (s : State) : (commit n k s).mem = s.mem := rfl
@[simp] theorem commit_flag (n k : Nat) (s : State) (f : Flag) : (commit n k s).flag f = s.flag f := rfl

/-- A form whose penalty is 0 costs its base wherever it lies (R191). -/
@[simp] theorem cost_no_penalty (base : Nat) (crossed : Bool) : cost base 0 crossed = base := by
  simp [cost]

/-- Zero extension keeps the value (R8). -/
@[simp] theorem zext16_toNat (b : Byte) : (zext16 b).toNat = b.toNat := by
  have := b.isLt
  simp only [zext16, BitVec.toNat_setWidth]
  omega

/-- The value of a joined pair of bytes (R44). -/
theorem joinBytes_toNat (hi lo : Byte) : (joinBytes hi lo).toNat = lo.toNat + 256 * hi.toNat := by
  have := lo.isLt
  simp only [joinBytes, BitVec.toNat_append, Nat.shiftLeft_eq]
  rw [← Nat.shiftLeft_eq, ← Nat.shiftLeft_add_eq_or_of_lt this, Nat.shiftLeft_eq]
  omega

/-- What the end of a step can do besides the handler's own effect. -/
theorem complete_next {prof : Profile} {k : Fin 8} {op : Operation} {r : Resolved} {base pen : Nat}
    {s t : State} (h : complete prof k op r base pen s = .next t) :
    t.x = s.x ∧ t.y = s.y ∧ t.sp = s.sp ∧ t.mem = s.mem ∧ reservedBits t.p = reservedBits s.p ∧
      t.cyc = s.cyc + cost base pen r.crossed := by
  have hk := execute_keepsRest h
  exact ⟨hk.x, hk.y, hk.sp, hk.mem, hk.reserved, hk.cyc⟩

/-- The page report is that the operand bytes end in another page (R100). -/
theorem crossedPage_iff (a : Addr) (n : Nat) : crossedPage a n = true ↔ 256 ≤ a.toNat % 256 + n := by
  simp [crossedPage]

/-- Every mode but the implied one yields a byte (R101). -/
theorem resolve_yields (prof : Profile) (mode : Mode) (s : State) :
    (resolve prof mode s).m = none ↔ mode = .imp := by
  cases mode <;> simp [resolve, resolveImp, resolveAcc, resolveImm, resolveZp, resolveZpx, resolveZpy,
    resolveAbs, resolveAbx, resolveAby, resolveInx, resolveIny, resolveRel]

end Sys2Proof.Machine
end

