-- ==== Sys2Proof/Laws/Exec.lean ====
section
/-! SUPPORT. What `exec` can do, said once: it is the end of a step for one operation, with an operand where the operation needs one. -/

namespace Sys2Proof.Machine

/-- Every form is its operation's `complete` under this core's parameters, with a byte for an operation that needs one. -/
theorem exec_eq_complete (i : Instr) (s : State) :
    ∃ op r base pen, exec i s = complete Params.profile Params.aslCarryBit op r base pen s ∧
      (op.needsOperand = true → r.m ≠ none) := by
  cases i <;>
    simp only [exec, execAdcImm, execAdcZp, execAdcZpx, execAdcAbs, execAdcAbx, execAdcAby, execAdcInx, execAdcIny,
      execAndImm, execAndZp, execAndZpx, execAndAbs, execAndAbx, execAndAby, execAndInx, execAndIny,
      execAslAcc, execAslZp, execAslZpx, execAslAbs, execAslAbx, execBitZp, execBitAbs, execNop,
      execBcc, execBcs, execBeq, execBne, execBmi, execBpl, execBvc, execBvs] <;>
    refine ⟨_, _, _, _, rfl, fun h => ?_⟩ <;>
    first
      | (simp [Operation.needsOperand] at h; done)
      | simp [resolveImm, resolveZp, resolveZpx, resolveAbs, resolveAbx, resolveAby, resolveInx,
          resolveIny, resolveRel]

end Sys2Proof.Machine
end

