-- ==== Sys2Proof/Laws/Host.lean ====
section
/-! SUPPORT. What the table-driven step, construction and the host's actions can do, said once each. -/

namespace Sys2Proof.Machine

/-- A completed step found the opcode in all three tables and ran to its end (R80). -/
theorem tableStep_next {c : Config} {s t : State} (h : tableStep c s = .next t) :
    ∃ op mode tm, c.opTable.lookup (readByte s s.pc) = some op ∧
      c.modeTable.lookup (readByte s s.pc) = some mode ∧
      c.timeTable.lookup (readByte s s.pc) = some tm ∧
      complete c.profile c.aslCarryBit op (resolve c.profile mode s) tm.base tm.pen s = .next t := by
  simp only [tableStep] at h
  split at h
  · cases h
  split at h
  · cases h
  split at h
  · cases h
  exact ⟨_, _, _, by assumption, by assumption, by assumption, h⟩

/-- A faulting step raised one of the three step faults, with the opcode byte and its address (R82, R206). -/
theorem tableStep_fault {c : Config} {s : State} {f : Fault} (h : tableStep c s = .fault f) :
    f = .illegalOpcode (readByte s s.pc) s.pc ∨ f = .illegalAddressingMode (readByte s s.pc) s.pc ∨
      f = .illegalTiming (readByte s s.pc) s.pc := by
  simp only [tableStep] at h
  split at h
  · cases h; simp
  split at h
  · cases h; simp
  split at h
  · cases h; simp
  exact (execute_ne_fault _ _ _ _ _ _ h).elim

/-- Whatever configuration, a completed step leaves memory as it was (R90). -/
theorem tableStep_mem {c : Config} {s t : State} (h : tableStep c s = .next t) : t.mem = s.mem := by
  obtain ⟨_, _, _, -, -, -, h⟩ := tableStep_next h
  exact (complete_next h).2.2.2.1

theorem construct_of_le (c : Config) {e : Nat} (h : e ≤ 65535) :
    construct c e = .next ⟨{ c with entry := BitVec.ofNat 16 e }, resetOf { c with entry := BitVec.ofNat 16 e }⟩ :=
  if_pos (Nat.lt_succ_of_le h)

theorem construct_of_lt (c : Config) {e : Nat} (h : 65535 < e) : construct c e = .fault .invalidEntryAddress :=
  if_neg (Nat.not_lt.mpr h)

@[simp] theorem settleOutcome_next (s t : State) : settleOutcome s (.next t) = (t, .done) := rfl
@[simp] theorem settleOutcome_fault (s : State) (f : Fault) : settleOutcome s (.fault f) = (s, .faulted f) := rfl
@[simp] theorem settleOutcome_refused (s : State) (r : Refusal) :
    settleOutcome s (.refused r) = (s, .refused r) := rfl

/-- The host learns of a fault only from a step or load that faulted, and its state is as it was (R208). -/
theorem settleOutcome_faulted {s : State} {o : Host.Outcome State Fault Refusal} {f : Fault}
    (h : (settleOutcome s o).2 = .faulted f) : o = .fault f ∧ (settleOutcome s o).1 = s := by
  cases o <;> simp at h
  subst h
  exact ⟨rfl, rfl⟩

end Sys2Proof.Machine
end

