-- ==== Sys2Proof/Laws/PerInstr.lean ====
section
/-! SUPPORT. Facts about every instruction as syntax, one lemma per constructor. -/

namespace Sys2Proof.Laws.EncodedBytes

/-- The encoding is one opcode byte that some template claims and at most two operand bytes (R60). -/
def Statement (i : Instr) : Prop :=
  ∃ op rest t, encode i = op :: rest ∧ rest.length ≤ 2 ∧ templateOf op = some t

theorem adcImm (m : Byte) : Statement (.adcImm m) :=
  ⟨_, _, _, rfl, by simp, rfl⟩

theorem adcZp (b0 : Byte) : Statement (.adcZp b0) :=
  ⟨_, _, _, rfl, by simp, rfl⟩

theorem adcZpx (b0 : Byte) : Statement (.adcZpx b0) :=
  ⟨_, _, _, rfl, by simp, rfl⟩

theorem adcAbs (addr : Addr) : Statement (.adcAbs addr) :=
  ⟨_, _, _, rfl, by simp, rfl⟩

theorem adcAbx (addr : Addr) : Statement (.adcAbx addr) :=
  ⟨_, _, _, rfl, by simp, rfl⟩

theorem adcAby (addr : Addr) : Statement (.adcAby addr) :=
  ⟨_, _, _, rfl, by simp, rfl⟩

theorem adcInx (b0 : Byte) : Statement (.adcInx b0) :=
  ⟨_, _, _, rfl, by simp, rfl⟩

theorem adcIny (b0 : Byte) : Statement (.adcIny b0) :=
  ⟨_, _, _, rfl, by simp, rfl⟩

theorem andImm (m : Byte) : Statement (.andImm m) :=
  ⟨_, _, _, rfl, by simp, rfl⟩

theorem andZp (b0 : Byte) : Statement (.andZp b0) :=
  ⟨_, _, _, rfl, by simp, rfl⟩

theorem andZpx (b0 : Byte) : Statement (.andZpx b0) :=
  ⟨_, _, _, rfl, by simp, rfl⟩

theorem andAbs (addr : Addr) : Statement (.andAbs addr) :=
  ⟨_, _, _, rfl, by simp, rfl⟩

theorem andAbx (addr : Addr) : Statement (.andAbx addr) :=
  ⟨_, _, _, rfl, by simp, rfl⟩

theorem andAby (addr : Addr) : Statement (.andAby addr) :=
  ⟨_, _, _, rfl, by simp, rfl⟩

theorem andInx (b0 : Byte) : Statement (.andInx b0) :=
  ⟨_, _, _, rfl, by simp, rfl⟩

theorem andIny (b0 : Byte) : Statement (.andIny b0) :=
  ⟨_, _, _, rfl, by simp, rfl⟩

theorem aslAcc : Statement .aslAcc :=
  ⟨_, _, _, rfl, by simp, rfl⟩

theorem aslZp (b0 : Byte) : Statement (.aslZp b0) :=
  ⟨_, _, _, rfl, by simp, rfl⟩

theorem aslZpx (b0 : Byte) : Statement (.aslZpx b0) :=
  ⟨_, _, _, rfl, by simp, rfl⟩

theorem aslAbs (addr : Addr) : Statement (.aslAbs addr) :=
  ⟨_, _, _, rfl, by simp, rfl⟩

theorem aslAbx (addr : Addr) : Statement (.aslAbx addr) :=
  ⟨_, _, _, rfl, by simp, rfl⟩

theorem bitZp (b0 : Byte) : Statement (.bitZp b0) :=
  ⟨_, _, _, rfl, by simp, rfl⟩

theorem bitAbs (addr : Addr) : Statement (.bitAbs addr) :=
  ⟨_, _, _, rfl, by simp, rfl⟩

theorem nop : Statement .nop :=
  ⟨_, _, _, rfl, by simp, rfl⟩

theorem bcc (m : Byte) : Statement (.bcc m) :=
  ⟨_, _, _, rfl, by simp, rfl⟩

theorem bcs (m : Byte) : Statement (.bcs m) :=
  ⟨_, _, _, rfl, by simp, rfl⟩

theorem beq (m : Byte) : Statement (.beq m) :=
  ⟨_, _, _, rfl, by simp, rfl⟩

theorem bne (m : Byte) : Statement (.bne m) :=
  ⟨_, _, _, rfl, by simp, rfl⟩

theorem bmi (m : Byte) : Statement (.bmi m) :=
  ⟨_, _, _, rfl, by simp, rfl⟩

theorem bpl (m : Byte) : Statement (.bpl m) :=
  ⟨_, _, _, rfl, by simp, rfl⟩

theorem bvc (m : Byte) : Statement (.bvc m) :=
  ⟨_, _, _, rfl, by simp, rfl⟩

theorem bvs (m : Byte) : Statement (.bvs m) :=
  ⟨_, _, _, rfl, by simp, rfl⟩

end Sys2Proof.Laws.EncodedBytes
end

