-- ==== Sys2Proof/Tests/Slice0.lean ====
section
/-! SUPPORT. The model's own tests: the worked examples and vectors of spec/42_alu_operations.md, spec/43_branches.md and spec/95_test_vectors.md, the decoding of every constructor's written bytes, ill-formed terms, and a witness for every statement with hypotheses. -/

namespace Sys2Proof.Tests

open Sys2Proof.Machine Sys2Proof.Claims

/-- The launch state of the vectors: reset with `ENTRY = 0x0600`, `FLAGS_RESET = 0x20`, bytes at 0x0600, `A` as given. -/
def at0600 (bytes : List Byte) (a : Byte) : State := (storeBytes State.reset 0x0600#16 bytes).setA a

/-- A completed step as the vectors list it: A, P, PC, CYC. -/
def seen (o : Host.Outcome State Fault Refusal) : Option (Nat × Nat × Nat × Nat) :=
  match o with
  | .next t => some (t.a.toNat, t.p.toNat, t.pc.toNat, t.cyc)
  | .fault _ => none
  | .refused _ => none

/-- PC and CYC of a completed step. -/
def moved (o : Host.Outcome State Fault Refusal) : Option (Nat × Nat) :=
  match o with
  | .next t => some (t.pc.toNat, t.cyc)
  | .fault _ => none
  | .refused _ => none

/-- The fault of a step. -/
def faulted (o : Host.Outcome State Fault Refusal) : Option Fault :=
  match o with
  | .next _ => none
  | .fault f => some f
  | .refused _ => none

/-- This core under `PROFILE = CORRECTED`. -/
def corrected : Config := { machineConfig with profile := .corrected }

/-! Decoding: every constructor, its bytes written bit by bit from the encoding column of spec/opcode_table.json, operands 0x34 or 34 12. -/

theorem test_decode_adc :
    decode [0b01101001#8, 0x34#8] = .instr (.adcImm 0x34#8) [] ∧
    decode [0b01100101#8, 0x34#8] = .instr (.adcZp 0x34#8) [] ∧
    decode [0b01110101#8, 0x34#8] = .instr (.adcZpx 0x34#8) [] ∧
    decode [0b01101101#8, 0x34#8, 0x12#8] = .instr (.adcAbs 0x1234#16) [] ∧
    decode [0b01111101#8, 0x34#8, 0x12#8] = .instr (.adcAbx 0x1234#16) [] ∧
    decode [0b01111001#8, 0x34#8, 0x12#8] = .instr (.adcAby 0x1234#16) [] ∧
    decode [0b01100001#8, 0x34#8] = .instr (.adcInx 0x34#8) [] ∧
    decode [0b01110001#8, 0x34#8] = .instr (.adcIny 0x34#8) [] := by decide

theorem test_decode_and :
    decode [0b00101001#8, 0x34#8] = .instr (.andImm 0x34#8) [] ∧
    decode [0b00100101#8, 0x34#8] = .instr (.andZp 0x34#8) [] ∧
    decode [0b00110101#8, 0x34#8] = .instr (.andZpx 0x34#8) [] ∧
    decode [0b00101101#8, 0x34#8, 0x12#8] = .instr (.andAbs 0x1234#16) [] ∧
    decode [0b00111101#8, 0x34#8, 0x12#8] = .instr (.andAbx 0x1234#16) [] ∧
    decode [0b00111001#8, 0x34#8, 0x12#8] = .instr (.andAby 0x1234#16) [] ∧
    decode [0b00100001#8, 0x34#8] = .instr (.andInx 0x34#8) [] ∧
    decode [0b00110001#8, 0x34#8] = .instr (.andIny 0x34#8) [] := by decide

theorem test_decode_asl :
    decode [0b00001010#8] = .instr .aslAcc [] ∧
    decode [0b00000110#8, 0x34#8] = .instr (.aslZp 0x34#8) [] ∧
    decode [0b00010110#8, 0x34#8] = .instr (.aslZpx 0x34#8) [] ∧
    decode [0b00001110#8, 0x34#8, 0x12#8] = .instr (.aslAbs 0x1234#16) [] ∧
    decode [0b00011110#8, 0x34#8, 0x12#8] = .instr (.aslAbx 0x1234#16) [] := by decide

theorem test_decode_bit :
    decode [0b00100100#8, 0x34#8] = .instr (.bitZp 0x34#8) [] ∧
    decode [0b00101100#8, 0x34#8, 0x12#8] = .instr (.bitAbs 0x1234#16) [] := by decide

theorem test_decode_nop :
    decode [0b11101010#8] = .instr .nop [] := by decide

theorem test_decode_branches :
    decode [0b10010000#8, 0x34#8] = .instr (.bcc 0x34#8) [] ∧
    decode [0b10110000#8, 0x34#8] = .instr (.bcs 0x34#8) [] ∧
    decode [0b11110000#8, 0x34#8] = .instr (.beq 0x34#8) [] ∧
    decode [0b11010000#8, 0x34#8] = .instr (.bne 0x34#8) [] ∧
    decode [0b00110000#8, 0x34#8] = .instr (.bmi 0x34#8) [] ∧
    decode [0b00010000#8, 0x34#8] = .instr (.bpl 0x34#8) [] ∧
    decode [0b01010000#8, 0x34#8] = .instr (.bvc 0x34#8) [] ∧
    decode [0b01110000#8, 0x34#8] = .instr (.bvs 0x34#8) [] := by decide

/-- Neighbours of legal opcodes and other opcodes of S8 are refused by name. -/
theorem test_decode_illegal : ∀ op ∈ [0x00#8, 0xFF#8, 0x4C#8, 0xA9#8, 0x02#8, 0x1A#8, 0x2A#8, 0xEB#8],
    decode [op, 0#8, 0#8] = .refused (.illegalOpcode op) := by decide

theorem test_decode_truncated : decode [0x6D#8, 0x34#8] = .refused (.truncated 0x6D#8) ∧
    decode [0x69#8] = .refused (.truncated 0x69#8) ∧ decode [] = .refused .noOpcode := by decide

theorem test_encode_little_endian : encode (.adcAbs 0x1234#16) = [0x6D#8, 0x34#8, 0x12#8] := by decide

/-- The table numbers the bits of the first byte 7..0, of the second 15..8, of the third 23..16. -/
theorem test_decodeTableWord : decodeTableWord 24 0x12346D = some (.adcAbs 0x1234#16) ∧
    decodeTableWord 8 0x12346D = some (.adcAbs 0#16) ∧ decodeTableWord 8 0x00 = none := by decide

/-- All 224 other bytes are illegal (R66). -/
theorem test_legal_count : legalOpcodes.length = 32 ∧ legalOpcodes.Nodup := by decide

/-! Ill-formed terms: one per check. -/

theorem test_wf_mode_missing : Config.tablesComplete { machineConfig with modeTable := defaultModeTable.tail } = false := by decide

theorem test_wf_timing_missing : Config.tablesComplete { machineConfig with timeTable := defaultTimeTable.tail } = false := by decide

theorem test_wf_implied_operand : Config.operandsSupplied
    { machineConfig with modeTable := (0x69#8, .imp) :: defaultModeTable } = false := by decide

theorem test_wf_flags_reset : Config.flagsResetClear { machineConfig with flagsReset := 0x21#8 } = false ∧
    Config.flagsResetClear { machineConfig with flagsReset := 0xA0#8 } = false := by decide

theorem test_wf_whole : Config.wellFormed { machineConfig with flagsReset := 0x22#8 } = false ∧
    Config.wellFormed { machineConfig with modeTable := [] } = false := by decide

/-- Every instruction is well formed (R62). -/
theorem test_wf_instr : Instr.wellFormed (.adcImm 0xFF#8) = true := by decide

theorem test_memory_ill_formed : Memory.wf [(2, 1#8), (1, 1#8)] = false ∧ Memory.wf [(1, 1#8), (1, 2#8)] = false ∧
    Memory.wf [(1, 0#8)] = false ∧ Memory.wf [(65536, 1#8)] = false ∧
    Memory.wf [(0, 1#8), (65535, 2#8)] = true := by decide

theorem test_memory_write_zero_removes : Memory.write (Memory.write [] 7 5#8) 7 0#8 = [] := by decide

/-! One step per form: the worked example of its rule. -/

/-- R140, worked example. -/
theorem test_adc_imm : seen (step (at0600 [0x69#8, 0x05#8] 0x18#8)) = some (0x1D, 0x20, 0x602, 2) := by decide

/-- R141, worked example. -/
theorem test_adc_zp : seen (step (writeByte (at0600 [0x65#8, 0x10#8] 0x18#8) 0x10#16 0x95#8)) = some (0xAD, 0xA0, 0x602, 3) := by decide

/-- R142, worked example. -/
theorem test_adc_zpx : seen (step ((writeByte (at0600 [0x75#8, 0x10#8] 0x18#8) 0x14#16 0x7F#8).setX 0x4#8)) = some (0x97, 0xA0, 0x602, 4) := by decide

/-- R143, worked example. -/
theorem test_adc_abs : seen (step (writeByte (at0600 [0x6D#8, 0x34#8, 0x12#8] 0x18#8) 0x1234#16 0x3C#8)) = some (0x54, 0x20, 0x603, 4) := by decide

/-- R144, worked example. -/
theorem test_adc_abx : seen (step ((writeByte (at0600 [0x7D#8, 0xFF#8, 0x12#8] 0x18#8) 0x1300#16 0xC1#8).setX 0x1#8)) = some (0xD9, 0xA0, 0x603, 4) := by decide

/-- R145, worked example. -/
theorem test_adc_aby : seen (step ((writeByte (at0600 [0x79#8, 0x00#8, 0x20#8] 0x18#8) 0x2010#16 0xAA#8).setY 0x10#8)) = some (0xC2, 0xA0, 0x603, 4) := by decide

/-- R146, worked example under `CORRECTED`; under `REFERENCE` the operand is open and PC and CYC are fixed (U2). -/
theorem test_adc_inx :
    seen (tableStep corrected ((writeByte (writeByte (writeByte (at0600 [0x61#8, 0x20#8] 0x18#8) 0x24#16 0x0#8) 0x25#16 0x30#8) 0x3000#16 0x5A#8).setX 0x4#8)) = some (0x72, 0x20, 0x602, 6) ∧
    moved (step ((writeByte (writeByte (writeByte (at0600 [0x61#8, 0x20#8] 0x18#8) 0x24#16 0x0#8) 0x25#16 0x30#8) 0x3000#16 0x5A#8).setX 0x4#8)) = some (0x602, 6) := by decide

/-- R147, worked example under `CORRECTED`; under `REFERENCE` the operand is open and PC and CYC are fixed (U2). -/
theorem test_adc_iny :
    seen (tableStep corrected ((writeByte (writeByte (writeByte (at0600 [0x71#8, 0x20#8] 0x18#8) 0x20#16 0xF8#8) 0x21#16 0x30#8) 0x3108#16 0x77#8).setY 0x10#8)) = some (0x8F, 0xA0, 0x602, 5) ∧
    moved (step ((writeByte (writeByte (writeByte (at0600 [0x71#8, 0x20#8] 0x18#8) 0x20#16 0xF8#8) 0x21#16 0x30#8) 0x3108#16 0x77#8).setY 0x10#8)) = some (0x602, 5) := by decide

/-- R148, worked example. -/
theorem test_and_imm : seen (step (at0600 [0x29#8, 0x05#8] 0xEE#8)) = some (0x4, 0x20, 0x602, 2) := by decide

/-- R149, worked example. -/
theorem test_and_zp : seen (step (writeByte (at0600 [0x25#8, 0x10#8] 0xEE#8) 0x10#16 0x95#8)) = some (0x84, 0xA0, 0x602, 3) := by decide

/-- R150, worked example. -/
theorem test_and_zpx : seen (step ((writeByte (at0600 [0x35#8, 0x10#8] 0xEE#8) 0x14#16 0x7F#8).setX 0x4#8)) = some (0x6E, 0x20, 0x602, 4) := by decide

/-- R151, worked example. -/
theorem test_and_abs : seen (step (writeByte (at0600 [0x2D#8, 0x34#8, 0x12#8] 0xEE#8) 0x1234#16 0x3C#8)) = some (0x2C, 0x20, 0x603, 4) := by decide

/-- R152, worked example. -/
theorem test_and_abx : seen (step ((writeByte (at0600 [0x3D#8, 0xFF#8, 0x12#8] 0xEE#8) 0x1300#16 0xC1#8).setX 0x1#8)) = some (0xC0, 0xA0, 0x603, 4) := by decide

/-- R153, worked example. -/
theorem test_and_aby : seen (step ((writeByte (at0600 [0x39#8, 0x00#8, 0x20#8] 0xEE#8) 0x2010#16 0xAA#8).setY 0x10#8)) = some (0xAA, 0xA0, 0x603, 4) := by decide

/-- R154, worked example under `CORRECTED`; under `REFERENCE` the operand is open and PC and CYC are fixed (U2). -/
theorem test_and_inx :
    seen (tableStep corrected ((writeByte (writeByte (writeByte (at0600 [0x21#8, 0x20#8] 0xEE#8) 0x24#16 0x0#8) 0x25#16 0x30#8) 0x3000#16 0x5A#8).setX 0x4#8)) = some (0x4A, 0x20, 0x602, 6) ∧
    moved (step ((writeByte (writeByte (writeByte (at0600 [0x21#8, 0x20#8] 0xEE#8) 0x24#16 0x0#8) 0x25#16 0x30#8) 0x3000#16 0x5A#8).setX 0x4#8)) = some (0x602, 6) := by decide

/-- R155, worked example under `CORRECTED`; under `REFERENCE` the operand is open and PC and CYC are fixed (U2). -/
theorem test_and_iny :
    seen (tableStep corrected ((writeByte (writeByte (writeByte (at0600 [0x31#8, 0x20#8] 0xEE#8) 0x20#16 0xF8#8) 0x21#16 0x30#8) 0x3108#16 0x77#8).setY 0x10#8)) = some (0x66, 0x20, 0x602, 5) ∧
    moved (step ((writeByte (writeByte (writeByte (at0600 [0x31#8, 0x20#8] 0xEE#8) 0x20#16 0xF8#8) 0x21#16 0x30#8) 0x3108#16 0x77#8).setY 0x10#8)) = some (0x602, 5) := by decide

/-- R156, worked example, both profiles. -/
theorem test_asl_acc :
    seen (step (at0600 [0x0A#8] 0x41#8)) = some (0x82, 0x21, 0x601, 2) ∧
    seen (tableStep corrected (at0600 [0x0A#8] 0x41#8)) = some (0x82, 0xA1, 0x601, 2) := by decide

/-- R157, worked example, both profiles. -/
theorem test_asl_zp :
    seen (step (writeByte (at0600 [0x06#8, 0x10#8] 0x41#8) 0x10#16 0x95#8)) = some (0x82, 0x21, 0x602, 5) ∧
    seen (tableStep corrected (writeByte (at0600 [0x06#8, 0x10#8] 0x41#8) 0x10#16 0x95#8)) = some (0x82, 0xA1, 0x602, 5) := by decide

/-- R158, worked example, both profiles. -/
theorem test_asl_zpx :
    seen (step ((writeByte (at0600 [0x16#8, 0x10#8] 0x41#8) 0x14#16 0x7F#8).setX 0x4#8)) = some (0x82, 0x21, 0x602, 6) ∧
    seen (tableStep corrected ((writeByte (at0600 [0x16#8, 0x10#8] 0x41#8) 0x14#16 0x7F#8).setX 0x4#8)) = some (0x82, 0xA1, 0x602, 6) := by decide

/-- R159, worked example, both profiles. -/
theorem test_asl_abs :
    seen (step (writeByte (at0600 [0x0E#8, 0x34#8, 0x12#8] 0x41#8) 0x1234#16 0x3C#8)) = some (0x82, 0x21, 0x603, 6) ∧
    seen (tableStep corrected (writeByte (at0600 [0x0E#8, 0x34#8, 0x12#8] 0x41#8) 0x1234#16 0x3C#8)) = some (0x82, 0xA1, 0x603, 6) := by decide

/-- R160, worked example, both profiles. -/
theorem test_asl_abx :
    seen (step ((writeByte (at0600 [0x1E#8, 0xFF#8, 0x12#8] 0x41#8) 0x1300#16 0xC1#8).setX 0x1#8)) = some (0x82, 0x21, 0x603, 7) ∧
    seen (tableStep corrected ((writeByte (at0600 [0x1E#8, 0xFF#8, 0x12#8] 0x41#8) 0x1300#16 0xC1#8).setX 0x1#8)) = some (0x82, 0xA1, 0x603, 7) := by decide

/-- R161, worked example. -/
theorem test_bit_zp : seen (step (writeByte (at0600 [0x24#8, 0x10#8] 0x6A#8) 0x10#16 0x95#8)) = some (0x6A, 0xA2, 0x602, 3) := by decide

/-- R162, worked example. -/
theorem test_bit_abs : seen (step (writeByte (at0600 [0x2C#8, 0x34#8, 0x12#8] 0x6A#8) 0x1234#16 0x3C#8)) = some (0x6A, 0x20, 0x603, 4) := by decide

/-- R163, worked example. -/
theorem test_nop : seen (step (at0600 [0xEA#8] 0x0#8)) = some (0x0, 0x20, 0x601, 2) := by decide

/-- R172, V4 condition table. -/
theorem test_bcc :
    moved (step ((at0600 [0x90#8, 0x10#8] 0#8).setP 0x20#8)) = some (0x612, 2) ∧
    moved (step ((at0600 [0x90#8, 0x10#8] 0#8).setP 0x21#8)) = some (0x602, 2) := by decide

/-- R173, V4 condition table. -/
theorem test_bcs :
    moved (step ((at0600 [0xB0#8, 0x10#8] 0#8).setP 0x20#8)) = some (0x602, 2) ∧
    moved (step ((at0600 [0xB0#8, 0x10#8] 0#8).setP 0x21#8)) = some (0x612, 2) := by decide

/-- R174, V4 condition table. -/
theorem test_beq :
    moved (step ((at0600 [0xF0#8, 0x10#8] 0#8).setP 0x20#8)) = some (0x602, 2) ∧
    moved (step ((at0600 [0xF0#8, 0x10#8] 0#8).setP 0x22#8)) = some (0x612, 2) := by decide

/-- R175, V4 condition table. -/
theorem test_bne :
    moved (step ((at0600 [0xD0#8, 0x10#8] 0#8).setP 0x20#8)) = some (0x612, 2) ∧
    moved (step ((at0600 [0xD0#8, 0x10#8] 0#8).setP 0x22#8)) = some (0x602, 2) := by decide

/-- R176, V4 condition table. -/
theorem test_bmi :
    moved (step ((at0600 [0x30#8, 0x10#8] 0#8).setP 0x20#8)) = some (0x602, 2) ∧
    moved (step ((at0600 [0x30#8, 0x10#8] 0#8).setP 0xA0#8)) = some (0x612, 2) := by decide

/-- R177, V4 condition table. -/
theorem test_bpl :
    moved (step ((at0600 [0x10#8, 0x10#8] 0#8).setP 0x20#8)) = some (0x612, 2) ∧
    moved (step ((at0600 [0x10#8, 0x10#8] 0#8).setP 0xA0#8)) = some (0x602, 2) := by decide

/-- R178, V4 condition table. -/
theorem test_bvc :
    moved (step ((at0600 [0x50#8, 0x10#8] 0#8).setP 0x20#8)) = some (0x612, 2) ∧
    moved (step ((at0600 [0x50#8, 0x10#8] 0#8).setP 0x60#8)) = some (0x602, 2) := by decide

/-- R179, V4 condition table. -/
theorem test_bvs :
    moved (step ((at0600 [0x70#8, 0x10#8] 0#8).setP 0x20#8)) = some (0x602, 2) ∧
    moved (step ((at0600 [0x70#8, 0x10#8] 0#8).setP 0x60#8)) = some (0x612, 2) := by decide

/-! Corner cases of 95_test_vectors.md. -/

/-- V1: the carry comes in, the sum wraps, V stays. -/
theorem test_adc_wraps :
    seen (exec (.adcImm 0xFF#8) ((at0600 [] 0xFF#8).setP 0x21#8)) = some (0xFF, 0xA1, 0x602, 2) ∧
    seen (exec (.adcImm 0x80#8) ((at0600 [] 0x80#8).setP 0x60#8)) = some (0x00, 0x63, 0x602, 2) ∧
    seen (exec (.adcImm 0x90#8) ((at0600 [] 0xD0#8).setP 0x61#8)) = some (0x61, 0x61, 0x602, 2) := by decide

/-- V2: C and V stay. -/
theorem test_and_keeps_carry :
    seen (exec (.andImm 0xFF#8) ((at0600 [] 0xFF#8).setP 0x61#8)) = some (0xFF, 0xE1, 0x602, 2) ∧
    seen (exec (.andImm 0xFF#8) ((at0600 [] 0x00#8).setP 0xA0#8)) = some (0x00, 0x22, 0x602, 2) := by decide

/-- V3, row 0x80, the four columns. -/
theorem test_asl_of_80 :
    seen (exec .aslAcc (at0600 [] 0x80#8)) = some (0x00, 0xA0, 0x601, 2) ∧
    seen (tableStep { machineConfig with aslCarryBit := 7 } (at0600 [0x0A#8] 0x80#8)) = some (0x00, 0xA1, 0x601, 2) ∧
    seen (tableStep corrected (at0600 [0x0A#8] 0x80#8)) = some (0x00, 0x22, 0x601, 2) ∧
    seen (tableStep { corrected with aslCarryBit := 7 } (at0600 [0x0A#8] 0x80#8)) = some (0x00, 0x23, 0x601, 2) := by
  decide

/-- V3b: N and V come from the operand; C stays. -/
theorem test_bit_flags :
    seen (exec (.bitZp 0x10#8) ((writeByte (at0600 [] 0x3F#8) 0x10#16 0xC0#8).setP 0x21#8)) = some (0x3F, 0xE3, 0x602, 3) ∧
    seen (exec (.bitZp 0x10#8) ((writeByte (at0600 [] 0xFF#8) 0x10#16 0x00#8).setP 0xE1#8)) = some (0xFF, 0x23, 0x602, 3) := by
  decide

/-- V4 displacement table, `90 mm` taken, both profiles. -/
theorem test_displacements :
    [0x80#8, 0x81#8, 0x82#8, 0xC0#8, 0xFB#8, 0xFF#8].map
      (fun m => (moved (step (at0600 [0x90#8, m] 0#8)), moved (tableStep corrected (at0600 [0x90#8, m] 0#8)))) =
    [(some (0x602, 2), some (0x582, 2)), (some (0x601, 2), some (0x583, 2)), (some (0x600, 2), some (0x584, 2)),
      (some (0x5C2, 2), some (0x5C2, 2)), (some (0x587, 2), some (0x5FD, 2)), (some (0x583, 2), some (0x601, 2))] := by
  decide

/-- V4, wraparound of the target. -/
theorem test_branch_target_wraps :
    moved (exec (.bcc 0x7F#8) (State.reset.setPc 0xFFF0#16)) = some (0x0071, 2) ∧
    moved (exec (.bcc 0x85#8) (State.reset.setPc 0x0001#16)) = some (0xFFFE, 2) ∧
    moved (exec (.bcc 0xFF#8) (State.reset.setPc 0x0000#16)) = some (0xFF83, 2) := by decide

/-- V5, `ZPX` sum = 0x1FE, both profiles. -/
theorem test_zpx_sum :
    let s := (writeByte (writeByte (at0600 [0x35#8, 0xFF#8] 0xFF#8) 0x01FE#16 0x44#8) 0x00FE#16 0x55#8).setX 0xFF#8
    seen (step s) = some (0x44, 0x20, 0x602, 4) ∧ seen (tableStep corrected s) = some (0x55, 0x20, 0x602, 4) := by
  decide

/-- V5, `ZPY` through a substituted table, both profiles. -/
theorem test_zpy :
    let s := (writeByte (writeByte (at0600 [0x02#8, 0xF8#8] 0xFF#8) 0x0108#16 0x11#8) 0x0008#16 0x22#8).setY 0x10#8
    let c (p : Profile) : Config := { machineConfig with
      profile := p, opTable := [(0x02#8, .and)], modeTable := [(0x02#8, .zpy)], timeTable := [(0x02#8, ⟨4, 0⟩)] }
    (seen (tableStep (c .reference) s)).map Prod.fst = some 0x11 ∧
      (seen (tableStep (c .corrected) s)).map Prod.fst = some 0x22 := by decide

/-- V5, absolute indexed wrap at the top of memory. -/
theorem test_absolute_indexed_wraps :
    seen (exec (.andAbx 0xFFFF#16) ((writeByte (at0600 [] 0xFF#8) 0x0001#16 0x69#8).setX 2#8)) = some (0x69, 0x20, 0x603, 4) ∧
    seen (exec (.andAby 0xFFF0#16) ((writeByte (at0600 [] 0xFF#8) 0x0010#16 0x6B#8).setY 0x20#8)) = some (0x6B, 0x20, 0x603, 4) := by
  decide

/-- V5, the pointers' wraps under `CORRECTED`. -/
theorem test_indirect_pointer_wraps :
    seen (tableStep corrected ((writeByte (writeByte (writeByte (writeByte (at0600 [0x21#8, 0xFE#8] 0xFF#8)
      0x00FF#16 0x34#8) 0x0000#16 0x12#8) 0x1234#16 0x6D#8) 0x0100#16 0x99#8).setX 1#8)) = some (0x6D, 0x20, 0x602, 6) ∧
    seen (tableStep corrected ((writeByte (writeByte (writeByte (writeByte (at0600 [0x31#8, 0xFF#8] 0xFF#8)
      0x00FF#16 0x33#8) 0x0000#16 0x12#8) 0x1234#16 0x70#8) 0x0100#16 0x99#8).setY 1#8)) = some (0x70, 0x20, 0x602, 5) := by
  decide

/-- V6, the page-boundary modifier. -/
theorem test_page_penalty :
    moved (exec (.adcAbx 0x2000#16) (State.reset.setPc 0x06FC#16)) = some (0x06FF, 4) ∧
    moved (exec (.adcAbx 0x2000#16) (State.reset.setPc 0x06FD#16)) = some (0x0700, 5) ∧
    moved (exec (.adcAbx 0x2000#16) (State.reset.setPc 0x06FE#16)) = some (0x0701, 5) ∧
    moved (exec (.adcAbx 0x2000#16) (State.reset.setPc 0x06FF#16)) = some (0x0702, 4) ∧
    moved (exec (.adcAbs 0x2000#16) (State.reset.setPc 0x06FD#16)) = some (0x0700, 4) ∧
    moved (exec (.andAbx 0x2000#16) (State.reset.setPc 0xFFFD#16)) = some (0x0000, 5) := by decide

/-- V7, instruction bytes across the top of memory. -/
theorem test_top_of_memory :
    seen (step ((writeByte (storeBytes (State.reset.setA 0xFF#8) 0xFFFE#16 [0x2D#8, 0x34#8, 0x12#8])
      0x1234#16 0x0F#8).setPc 0xFFFE#16)) = some (0x0F, 0x20, 0x0001, 4) ∧
    seen (step ((storeBytes (State.reset.setA 1#8) 0xFFFF#16 [0x69#8, 0x05#8]).setPc 0xFFFF#16)) =
      some (0x06, 0x20, 0x0001, 2) := by decide

/-- V8 and S8, the three step faults and their order. -/
theorem test_faults :
    let s := at0600 [0x69#8, 0x05#8] 0#8
    faulted (tableStep { machineConfig with opTable := [] } s) = some (.illegalOpcode 0x69#8 0x0600#16) ∧
    faulted (tableStep { machineConfig with modeTable := [], timeTable := [] } s) =
      some (.illegalAddressingMode 0x69#8 0x0600#16) ∧
    faulted (tableStep { machineConfig with timeTable := [] } s) = some (.illegalTiming 0x69#8 0x0600#16) ∧
    faulted (step (at0600 [0x4C#8] 0x12#8)) = some (.illegalOpcode 0x4C#8 0x0600#16) := by decide

/-- V8, construction, and S6: a reset of the core constructed at 0xFFFF gives PC = 0xFFFF again, P = 0x20, all else 0. -/
theorem test_construct :
    (match construct machineConfig 65535 with
      | .next k => some (hostAct k.config .reset ((writeByte k.state 0x1234#16 0x99#8).setA 0x55#8))
      | .fault _ => none
      | .refused _ => none) = some ((State.reset.setPc 0xFFFF#16), .done) ∧
    construct machineConfig 65536 = .fault .invalidEntryAddress := ⟨by decide, rfl⟩

/-- S7, load and read. -/
theorem test_load :
    (hostAct machineConfig (.load [1#8, 2#8, 3#8] 0x0600) State.reset).1.mem = [(0x0600, 1#8), (0x0601, 2#8), (0x0602, 3#8)] ∧
    (hostAct machineConfig (.load [0xAA#8] 0xFFFF) State.reset).1.mem = [(0xFFFF, 0xAA#8)] ∧
    hostAct machineConfig (.load [0xAA#8, 0xBB#8] 0xFFFF) State.reset = (State.reset, .faulted .outOfBounds) ∧
    (hostAct machineConfig (.load [] 65536) State.reset).2 = .done ∧
    (hostAct machineConfig (.load [0xAA#8] 65536) State.reset).2 = .faulted .outOfBounds := by decide

/-- The placed instruction is the one the next step runs. -/
theorem test_withFetchWord :
    seen (step ((State.reset.setA 0x18#8).withFetchWord 16 0x0569)) = some (0x1D, 0x20, 0x0602, 2) ∧
    seen (step (State.reset.withFetchWord 8 0xEA)) = some (0, 0x20, 0x0601, 2) := by decide

/-- R48, R58: the reads of one step. -/
theorem test_reads :
    stepReads machineConfig (at0600 [0x6D#8, 0x34#8, 0x12#8] 0#8) = [0x0600#16, 0x0601#16, 0x0602#16, 0x1234#16] ∧
    stepReads machineConfig (at0600 [0xEA#8] 0#8) = [0x0600#16] ∧ stepReads machineConfig State.reset = [0x0600#16] ∧
    stepReads corrected ((storeBytes State.reset 0x0600#16 [0x61#8, 0xFF#8]).setX 0x00#8) =
      [0x0600#16, 0x0601#16, 0x00FF#16, 0x0000#16, 0x0000#16] := by
  decide

/-! Witnesses: a state and operands that meet the hypotheses of each statement that has any. -/

/-- BitTestHandler, second part. -/
theorem witness_bitTestHandler : Operation.nop ≠ .bit ∧
    ∃ t, execute .reference 0 .nop none State.reset = .next t := ⟨by decide, _, rfl⟩

theorem witness_branchOperation : ∀ op ∈ [Operation.bcc, .bcs, .beq, .bne, .bmi, .bpl, .bvc, .bvs],
    op ∈ branchOperations := by decide

/-- AccessMatrixFrame: a completing instruction for each clause. -/
theorem witness_accessMatrix :
    (∃ t, exec .nop State.reset = .next t) ∧ writesA .nop = false ∧ writesZN .nop = false ∧
      (∃ t, exec (.andImm 1#8) State.reset = .next t) ∧ writesC (.andImm 1#8) = false ∧
      (∃ t, exec (.adcImm 1#8) State.reset = .next t) ∧ writesV (.adcImm 1#8) = false :=
  ⟨⟨_, rfl⟩, rfl, rfl, ⟨_, rfl⟩, rfl, ⟨_, rfl⟩, rfl⟩

/-- FlagsFromOneByte: a completing handler for each clause. -/
theorem witness_flagsFromOneByte :
    ∀ op ∈ [Operation.adc, .and, .asl, .bit, .nop, .bcc],
      seen (execute .corrected 7 op (some 0x80#8) State.reset) ≠ none := by decide

/-- StepRunsDecodedInstruction, PC at the top of memory. -/
theorem witness_stepRuns :
    let s := (storeBytes State.reset 0xFFFF#16 [0x69#8, 0x05#8]).setPc 0xFFFF#16
    decode [byteAt s s.pc.toNat, byteAt s ((s.pc.toNat + 1) % 65536), byteAt s ((s.pc.toNat + 2) % 65536)] =
      .instr (.adcImm 0x05#8) [0#8] ∧ Instr.wellFormed (.adcImm 0x05#8) = true := by decide

/-- StepCompletesOrIllegalOpcode, both clauses. -/
theorem witness_stepCompletes :
    let s := at0600 [0xF0#8] 0#8
    readByte s s.pc ∈ legalOpcodes ∧ readByte State.reset State.reset.pc ∉ legalOpcodes := by decide

/-- TableFaultsInOrder, the three clauses on an opcode 0x69. -/
theorem witness_tableFaults :
    let s := at0600 [0x69#8, 0x05#8] 0#8
    List.lookup (readByte s s.pc) ([] : List (Byte × Operation)) = none ∧
      defaultOpTable.lookup (readByte s s.pc) ≠ none ∧ List.lookup (readByte s s.pc) ([] : List (Byte × Mode)) = none ∧
      defaultModeTable.lookup (readByte s s.pc) ≠ none ∧
      List.lookup (readByte s s.pc) ([] : List (Byte × Timing)) = none := by decide

/-- WellFormedTablesNeverFailLater, both clauses. -/
theorem witness_wellFormedTables :
    let s := at0600 [0x24#8, 0x10#8] 0#8
    machineConfig.wellFormed = true ∧ machineConfig.opTable.lookup (readByte s s.pc) ≠ none ∧
      machineConfig.opTable.lookup (readByte State.reset State.reset.pc) = none := by decide

/-- ProgramCounterCommit, StepCost, CompletedStepChangesAtMost, ResultsIndependentOfTiming: a completed step of the table-driven machine, not taken, taken, and crossing a page. -/
theorem witness_tableStep_completes :
    let untaken := at0600 [0xB0#8, 0x10#8] 0#8
    let taken := at0600 [0x90#8, 0x80#8] 0#8
    let crossing := (storeBytes State.reset 0x06FD#16 [0x7D#8, 0x00#8, 0x12#8]).setPc 0x06FD#16
    (∃ t, tableStep machineConfig untaken = .next t) ∧ branchTaken .bcs untaken = false ∧
      (∃ t, tableStep machineConfig taken = .next t) ∧ branchTaken .bcc taken = true ∧
      (∃ t, tableStep machineConfig crossing = .next t) ∧
      (modeChecks .abx = true ∧ 256 ≤ (crossing.pc.toNat + 1) % 256 + modeWidth .abx) :=
  ⟨⟨_, rfl⟩, rfl, ⟨_, rfl⟩, rfl, ⟨_, rfl⟩, by decide⟩

theorem witness_bases_positive : ∀ row ∈ machineConfig.timeTable, 1 ≤ row.2.base := by decide

theorem witness_otherTiming :
    let s := at0600 [0xEA#8] 0#8
    (∃ t, tableStep machineConfig s = .next t) ∧
      List.lookup (readByte s s.pc) ([(0xEA#8, ⟨9, 9⟩)] : List (Byte × Timing)) ≠ none :=
  ⟨⟨_, rfl⟩, by decide⟩

/-- ReadsOfOneStep: each mode of the default table, and an opcode that a table lacks. -/
theorem witness_reads :
    (∀ row ∈ [(0xEA#8, Mode.imp), (0x0A#8, .acc), (0x69#8, .imm), (0x90#8, .rel), (0x65#8, .zp), (0x75#8, .zpx),
        (0x6D#8, .abs), (0x7D#8, .abx), (0x79#8, .aby), (0x61#8, .inx), (0x71#8, .iny)],
      machineConfig.modeTable.lookup (readByte (at0600 [row.1] 0#8) 0x0600#16) = some row.2 ∧
        machineConfig.opTable.lookup (readByte (at0600 [row.1] 0#8) 0x0600#16) ≠ none) ∧
    List.lookup 0xEA#8 ([] : List (Byte × Operation)) = none ∧ List.lookup 0xEA#8 ([] : List (Byte × Mode)) = none := by
  decide

/-- ReadsOfOneStep: the mode zero-page,Y, through a substituted table. -/
theorem witness_reads_zpy : List.lookup 0x02#8 [(0x02#8, Mode.zpy)] = some .zpy ∧
    List.lookup 0x02#8 [(0x02#8, Operation.and)] ≠ none := by decide

/-- PenaltyByPlaceOfOpcode, second clause: the shift's absolute,X form pays none. -/
theorem witness_noPenalty : hasPenalty (.aslAbx 0x2000#16) = false := by decide

/-- ConstructionChecksEntry and UnloadedCoreFaults, at both ends of each range. -/
theorem witness_construct : 0 ≤ 65535 ∧ 65535 ≤ 65535 ∧ 65535 < 65536 := by decide

/-- StepKeepsInvariant. -/
theorem witness_stepKeepsInvariant :
    let s := at0600 [0xEA#8] 0#8
    s.Inv ∧ ∃ t, step s = .next t :=
  ⟨⟨by decide, by decide⟩, _, rfl⟩

/-- HostActionsKeepCanonicalMemory, HostWriteByte. -/
theorem witness_canonicalMemory : Memory.wf (at0600 [0xEA#8, 0x00#8, 0x0A#8] 0#8).mem = true := by decide

/-- CanonicalMemoryIsUnique. -/
theorem witness_memoriesReadTheSame :
    let m := Memory.write (Memory.write [] 0 1#8) 65535 2#8
    let n := Memory.write (Memory.write [] 65535 2#8) 0 1#8
    Memory.wf m = true ∧ Memory.wf n = true ∧ ∀ a : Addr, Memory.read m a.toNat = Memory.read n a.toNat :=
  ⟨by decide, by decide, fun _ => rfl⟩

/-- FaultIsPreciseAndRepeats. -/
theorem witness_faultIsPrecise :
    (hostAct machineConfig .step State.reset).2 = .faulted (.illegalOpcode 0x00#8 0x0600#16) := by decide

/-- LoadBytesContract at the end of memory, both clauses. -/
theorem witness_loadBytes : Memory.wf State.reset.mem = true ∧ 0xFFFF + [0xAA#8].length ≤ 65536 ∧
    65536 < 0xFFFF + [0xAA#8, 0xBB#8].length := by decide

/-- EncodeDecodeRoundTrip. -/
theorem witness_encodeDecode : decode [0x7D#8, 0xFF#8, 0x12#8, 0x00#8] = .instr (.adcAbx 0x12FF#16) [0x00#8] := by decide

/-- ProfilesAgreeOutsideFourPlaces: a zero-page,X step whose sum is 0xFF, and a taken branch by 0xC0. -/
theorem witness_profilesAgree :
    let s := (at0600 [0x35#8, 0xF0#8] 0xFF#8).setX 0x0F#8
    (∀ op mode, machineConfig.opTable.lookup (readByte s s.pc) = some op →
      machineConfig.modeTable.lookup (readByte s s.pc) = some mode →
      op ≠ .asl ∧ mode ≠ .inx ∧ mode ≠ .iny ∧
      (mode = .zpx → (byteAt s ((s.pc.toNat + 1) % 65536)).toNat + s.x.toNat < 256) ∧
      (mode = .zpy → (byteAt s ((s.pc.toNat + 1) % 65536)).toNat + s.y.toNat < 256) ∧
      (branchTaken op s = true → ∀ b, (resolve .reference mode s).m = some b → b.toNat < 128 ∨ b = 0xC0#8)) := by
  intro s op mode hop hmode
  have h1 : machineConfig.opTable.lookup (readByte s s.pc) = some .and := by decide
  have h2 : machineConfig.modeTable.lookup (readByte s s.pc) = some .zpx := by decide
  rw [h1] at hop
  rw [h2] at hmode
  cases hop
  cases hmode
  decide

theorem witness_profilesAgree_branch :
    let s := at0600 [0x90#8, 0xC0#8] 0#8
    (∀ op mode, machineConfig.opTable.lookup (readByte s s.pc) = some op →
      machineConfig.modeTable.lookup (readByte s s.pc) = some mode →
      op ≠ .asl ∧ mode ≠ .inx ∧ mode ≠ .iny ∧
      (mode = .zpx → (byteAt s ((s.pc.toNat + 1) % 65536)).toNat + s.x.toNat < 256) ∧
      (mode = .zpy → (byteAt s ((s.pc.toNat + 1) % 65536)).toNat + s.y.toNat < 256) ∧
      (branchTaken op s = true → ∀ b, (resolve .reference mode s).m = some b → b.toNat < 128 ∨ b = 0xC0#8)) := by
  intro s op mode hop hmode
  have h1 : machineConfig.opTable.lookup (readByte s s.pc) = some .bcc := by decide
  have h2 : machineConfig.modeTable.lookup (readByte s s.pc) = some .rel := by decide
  rw [h1] at hop
  rw [h2] at hmode
  cases hop
  cases hmode
  refine ⟨by decide, by decide, by decide, by decide, by decide, fun _ b hb => ?_⟩
  have h3 : (resolve .reference .rel s).m = some 0xC0#8 := by decide
  rw [h3] at hb
  cases hb
  decide

/-- RunKeepsFrameAndChargesEveryStep: a run of two steps. -/
theorem witness_run : (afterSteps 2 (at0600 [0xEA#8, 0x0A#8] 0x41#8)).map (fun t => (t.a.toNat, t.cyc)) = some (0x82, 4) := by
  decide

/-- ChangeNamesTheOpcode: steps that change V, C and A. -/
theorem witness_change :
    let s := writeByte (at0600 [0x24#8, 0x10#8] 0xFF#8) 0x10#16 0xC0#8
    let r := at0600 [0x69#8, 0x01#8] 0xFF#8
    (∃ t, step s = .next t ∧ t.flag .v ≠ s.flag .v) ∧
      ∃ t, step r = .next t ∧ t.flag .c ≠ r.flag .c ∧ t.a ≠ r.a :=
  ⟨⟨_, rfl, by decide⟩, ⟨_, rfl, by decide, by decide⟩⟩

end Sys2Proof.Tests
end

/-! Which flags an operation writes and from which byte (spec/10_state.md R28), and what one flag access is (R27). -/

namespace Sys2Proof.Proofs.FlagWrites

open Sys2Proof.Machine Sys2Proof.Claims

/-- A flag reads as its place of `P`, the division and remainder for the shift and mask of R27. -/
theorem readFlag_iff_div_mod (p : Byte) (f : Flag) :
    readFlag p f = true ↔ p.toNat / 2 ^ flagBit f % 2 = 1 := by
  rw [readFlag_eq_bit, BitVec.getLsbD, Nat.testBit_eq_decide_div_mod_eq, decide_eq_true_iff]

/-- Settles O19: reading is `readFlag_iff_div_mod`, writing is `writeFlag_bit`. -/
theorem flagAccessOneBit : Obligations.FlagAccessOneBit :=
  ⟨⟨rfl, rfl, rfl, rfl⟩, fun p f v => ⟨readFlag_iff_div_mod p f, writeFlag_bit p f v⟩⟩

/-- Bit 7 of a byte is that it is 128 or more. -/
theorem getLsbD_seven_iff (d : Byte) : d.getLsbD 7 = true ↔ 128 ≤ d.toNat := by
  rw [← BitVec.msb_eq_getLsbD_last, BitVec.msb_eq_decide, decide_eq_true_iff]

theorem beq_zero_iff_toNat (d : Byte) : (d == 0#8) = true ↔ d.toNat = 0 := by
  rw [beq_iff_eq, ← BitVec.toNat_inj, BitVec.toNat_ofNat]

/-- What `SetZN(d)` leaves in the flags describes `d` (R130). -/
theorem zeroNegativeOf_of_setZN {t : State} {d p : Byte} (h : t.p = setZN d p) : ZeroNegativeOf t d := by
  rw [ZeroNegativeOf, State.flag, State.flag, h, readFlag_setZN_z, readFlag_setZN_n]
  exact ⟨beq_zero_iff_toNat d, getLsbD_seven_iff d⟩

/-- ADC describes the new A and keeps V (R131). -/
theorem addWithCarry_flags (b : Byte) (s : State) :
    ZeroNegativeOf (addWithCarry b s) (addWithCarry b s).a ∧
      (addWithCarry b s).flag .v = s.flag .v := by
  refine ⟨zeroNegativeOf_of_setZN rfl, ?_⟩
  simp only [addWithCarry, State.setP_flag, readFlag_setZN_v]
  exact readFlag_writeFlag_other _ _ (by decide)

/-- AND describes the new A and keeps C and V (R132). -/
theorem bitwiseAnd_flags (b : Byte) (s : State) :
    ZeroNegativeOf (bitwiseAnd b s) (bitwiseAnd b s).a ∧
      (bitwiseAnd b s).flag .c = s.flag .c ∧ (bitwiseAnd b s).flag .v = s.flag .v :=
  ⟨zeroNegativeOf_of_setZN rfl, readFlag_setZN_c _ _, readFlag_setZN_v _ _⟩

/-- ASL describes the byte its profile names and keeps V (R133). -/
theorem shiftLeft_flags (prof : Profile) (k : Fin 8) (s : State) :
    ZeroNegativeOf (shiftLeft prof k s)
        (if prof = .reference then s.a else (shiftLeft prof k s).a) ∧
      (shiftLeft prof k s).flag .v = s.flag .v := by
  constructor
  · cases prof <;> exact zeroNegativeOf_of_setZN rfl
  · simp only [shiftLeft, State.setP_flag, readFlag_setZN_v]
    exact readFlag_writeFlag_other _ _ (by decide)

/-- BIT has Z from A and the operand, N from the operand alone, and keeps C (R134). -/
theorem bitTest_flags (b : Byte) (s : State) :
    ((bitTest b s).flag .z = true ↔ (s.a &&& b).toNat = 0) ∧
      ((bitTest b s).flag .n = true ↔ 128 ≤ b.toNat) ∧ (bitTest b s).flag .c = s.flag .c := by
  have hz : (bitTest b s).flag .z = (s.a &&& b == 0#8) := by
    simp [bitTest, readFlag_writeFlag_other]
  have hn : (bitTest b s).flag .n = b.getLsbD 7 := by
    simp [bitTest, readFlag_writeFlag_other]
  have hc : (bitTest b s).flag .c = s.flag .c := by
    simp [bitTest, readFlag_writeFlag_other, State.flag]
  rw [hz, hn]
  exact ⟨beq_zero_iff_toNat _, getLsbD_seven_iff b, hc⟩

/-- What a handler that completed did: the operation that ran and the state it left (R131 to R135, R171). -/
inductive HandlerRan (prof : Profile) (k : Fin 8) (m : Option Byte) (s : State) :
    Operation → State → Prop
  | adc {b : Byte} (hm : m = some b) : HandlerRan prof k m s .adc (addWithCarry b s)
  | and {b : Byte} (hm : m = some b) : HandlerRan prof k m s .and (bitwiseAnd b s)
  | asl : HandlerRan prof k m s .asl (shiftLeft prof k s)
  | bit {b : Byte} (hm : m = some b) : HandlerRan prof k m s .bit (bitTest b s)
  | nop : HandlerRan prof k m s .nop s
  | branch {op : Operation} {b : Byte} (hop : op ∈ branchOperations) (hm : m = some b) :
      HandlerRan prof k m s op (branchIf prof (branchTaken op s) b s)

/-- A handler that completes did what R131 to R135 and R171 say, and had its byte if it needs one. -/
theorem execute_next {prof : Profile} {k : Fin 8} {op : Operation} {m : Option Byte} {s t : State}
    (h : execute prof k op m s = .next t) : HandlerRan prof k m s op t := by
  cases op <;> simp only [execute] at h
  case adc => obtain ⟨b, hm, rfl⟩ := withOperand_next h; exact .adc hm
  case and => obtain ⟨b, hm, rfl⟩ := withOperand_next h; exact .and hm
  case asl => cases h; exact .asl
  case bit => obtain ⟨b, hm, rfl⟩ := withOperand_next h; exact .bit hm
  case nop => cases h; exact .nop
  all_goals
    obtain ⟨b, hm, rfl⟩ := withOperand_next h
    exact .branch (by decide) hm

/-- Settles O18, by what each handler does to the flags. -/
theorem flagsFromOneByte : Obligations.FlagsFromOneByte := by
  intro prof k op m s t h
  cases execute_next h with
  | @adc b hm =>
    obtain ⟨hzn, hv⟩ := addWithCarry_flags b s
    simp [hzn, hv, branchOperations]
  | @and b hm =>
    obtain ⟨hzn, hc, hv⟩ := bitwiseAnd_flags b s
    simp [hzn, hc, hv, branchOperations]
  | asl =>
    obtain ⟨hzn, hv⟩ := shiftLeft_flags prof k s
    simp [hzn, hv, branchOperations]
  | @bit b hm =>
    obtain ⟨hz, hn, hc⟩ := bitTest_flags b s
    simp [hz, hn, hc, hm, branchOperations]
  | nop => simp [branchOperations]
  | @branch _ b hop hm =>
    have hflag (f : Flag) : (branchIf prof (branchTaken op s) b s).flag f = s.flag f :=
      congrArg (readFlag · f) (branchIf_flags _ _ _ _).2
    have hne : op ≠ .adc ∧ op ≠ .and ∧ op ≠ .asl ∧ op ≠ .bit := by
      refine ⟨?_, ?_, ?_, ?_⟩ <;> rintro rfl <;> exact absurd hop (by decide)
    simp [hflag, hne]

end Sys2Proof.Proofs.FlagWrites

/-! Where PC stands after a completed step (spec/40_step_dispatch.md R85): past the instruction, and a taken branch its displacement further (spec/43_branches.md R171). -/

namespace Sys2Proof.Proofs.ProgramCounter

open Sys2Proof.Machine Sys2Proof.Claims Sys2Proof.Proofs.FlagWrites

/-- The resolver reports the operand width of R60. -/
@[simp] theorem resolve_n (prof : Profile) (mode : Mode) (s : State) :
    (resolve prof mode s).n = modeWidth mode := by
  cases mode <;> rfl

/-- The commit puts PC past the opcode and the operand bytes (R85). -/
theorem commit_pc_toNat (n k : Nat) (s : State) :
    (commit n k s).pc.toNat = (s.pc.toNat + 1 + n) % 65536 := by
  simp [pc1, BitVec.toNat_add]

/-- The commit changes no flag, so a branch decides as it would before it. -/
@[simp] theorem branchTaken_commit (op : Operation) (n k : Nat) (s : State) :
    branchTaken op (commit n k s) = branchTaken op s := by
  cases op <;> rfl

/-- The model's displacement is that of R170. -/
theorem displacement_eq_signedDisplacement (prof : Profile) (b : Byte) :
    displacement prof b = signedDisplacement prof b := by
  unfold displacement signedDisplacement
  cases prof <;> simp only [reduceCtorEq, if_true, if_false] <;> split_ifs <;> omega

/-- A branch whose condition fails leaves PC where the commit put it (R171). -/
theorem branchIf_pc_untaken (prof : Profile) (b : Byte) (s : State) :
    (branchIf prof false b s).pc = s.pc := rfl

/-- A branch whose condition holds moves PC by its displacement, modulo 65536 (R171, R43). -/
theorem branchIf_pc_taken (prof : Profile) (b : Byte) (s : State) :
    ((branchIf prof true b s).pc.toNat : Int) =
      ((s.pc.toNat : Int) + signedDisplacement prof b) % 65536 := by
  simp only [branchIf, if_true, State.setPc_pc, BitVec.toNat_ofInt,
    displacement_eq_signedDisplacement]
  exact Int.toNat_of_nonneg (Int.emod_nonneg _ (by decide))

/-- A handler moves PC only for a branch whose condition holds. -/
theorem handlerRan_pc_untaken {prof : Profile} {k : Fin 8} {op : Operation} {m : Option Byte}
    {s t : State} (h : HandlerRan prof k m s op t) (htaken : branchTaken op s = false) :
    t.pc = s.pc := by
  cases h with
  | adc _ => rfl
  | and _ => rfl
  | asl => rfl
  | bit _ => rfl
  | nop => rfl
  | branch _ _ => rw [htaken, branchIf_pc_untaken]

/-- A branch whose condition holds had its operand byte and moved PC by that byte's displacement. -/
theorem handlerRan_pc_taken {prof : Profile} {k : Fin 8} {op : Operation} {m : Option Byte}
    {s t : State} (h : HandlerRan prof k m s op t) (htaken : branchTaken op s = true) :
    ∃ b, m = some b ∧
      (t.pc.toNat : Int) = ((s.pc.toNat : Int) + signedDisplacement prof b) % 65536 := by
  cases h with
  | adc _ => cases htaken
  | and _ => cases htaken
  | asl => cases htaken
  | bit _ => cases htaken
  | nop => cases htaken
  | @branch _ b _ hm => exact ⟨b, hm, by rw [htaken, branchIf_pc_taken]⟩

/-- Settles O26: the commit puts PC past the instruction, and only a taken branch moves it from there. -/
theorem programCounterCommit : Obligations.ProgramCounterCommit := by
  intro c s t h
  obtain ⟨op, mode, tm, hop, hmode, -, hcomplete⟩ := tableStep_next h
  have hran := execute_next hcomplete
  refine ⟨op, mode, hop, hmode, fun htaken => ?_, fun htaken => ?_⟩
  · rw [handlerRan_pc_untaken hran (by simpa using htaken), commit_pc_toNat, resolve_n]
  · obtain ⟨b, hm, hpc⟩ := handlerRan_pc_taken hran (by simpa using htaken)
    refine ⟨b, hm, ?_⟩
    rw [hpc, commit_pc_toNat, resolve_n]
    push_cast
    exact Int.emod_add_emod _ _ _

end Sys2Proof.Proofs.ProgramCounter

/-! The handlers of ADC, AND, BIT and no-operation as relations between the state before and the state after (spec/42_alu_operations.md R131, R132, R134, R135). -/

namespace Sys2Proof.Proofs.AluHandlers

open Sys2Proof.Machine Sys2Proof.Claims Sys2Proof.Proofs.FlagWrites Sys2Proof.Proofs.ProgramCounter

/-- Equal reserved bits of P are the same bits 2 to 5 (R26). -/
theorem getLsbD_eq_of_reservedBits_eq {p q : Byte} (h : reservedBits p = reservedBits q) {i : Nat}
    (hlo : 2 ≤ i) (hhi : i ≤ 5) : p.getLsbD i = q.getLsbD i := by
  have hbit := congrArg (·.getLsbD i) h
  have hmask : (0x3C#8).getLsbD i = true := by interval_cases i <;> rfl
  simpa only [reservedBits, BitVec.getLsbD_and, hmask, Bool.and_true] using hbit

/-- A completed handler changes nothing that no instruction changes (R36). -/
theorem execute_sameRest {prof : Profile} {k : Fin 8} {op : Operation} {m : Option Byte}
    {s t : State} (h : execute prof k op m s = .next t) : SameRest s t := by
  obtain ⟨hx, hy, hsp, -, hmem, hreserved⟩ := execute_keepsRest h
  exact ⟨hx, hy, hsp, fun a => by rw [readByte, readByte, hmem],
    fun i => getLsbD_eq_of_reservedBits_eq hreserved⟩

/-- The commit changes PC and CYC only (R85, R86). -/
theorem commit_onlyControl (n k : Nat) (s : State) : OnlyControl s (commit n k s) :=
  ⟨rfl, rfl, rfl, rfl, rfl, fun _ => rfl, fun _ _ _ => rfl⟩

/-- ADC leaves in A the sum modulo 256 (R131). -/
theorem addWithCarry_a_toNat (m : Byte) (s : State) :
    (addWithCarry m s).a.toNat = (s.a.toNat + m.toNat + (s.flag .c).toNat) % 256 :=
  BitVec.toNat_ofNat _ _

/-- ADC leaves in C whether the sum exceeds 255 (R131). -/
theorem addWithCarry_carry_iff (m : Byte) (s : State) :
    (addWithCarry m s).flag .c = true ↔ 255 < s.a.toNat + m.toNat + (s.flag .c).toNat := by
  simp only [addWithCarry, State.setP_flag, readFlag_setZN_c, readFlag_writeFlag_same,
    decide_eq_true_iff]

/-- The handler of ADC meets R131. -/
theorem addWithCarry_addsWithCarry (m : Byte) (s : State) :
    AddsWithCarry s (addWithCarry m s) m :=
  ⟨addWithCarry_a_toNat m s, addWithCarry_carry_iff m s, addWithCarry_flags m s⟩

/-- The handler of AND meets R132. -/
theorem bitwiseAnd_andsAccumulator (m : Byte) (s : State) :
    AndsAccumulator s (bitwiseAnd m s) m :=
  ⟨fun _ => BitVec.getLsbD_and, bitwiseAnd_flags m s⟩

/-- The AND of two bytes is zero exactly when no bit is set in both bytes. -/
theorem and_toNat_eq_zero_iff (a m : Byte) :
    (a &&& m).toNat = 0 ↔ ∀ i : Nat, (a.getLsbD i && m.getLsbD i) = false := by
  simp only [← BitVec.getLsbD_and]
  constructor
  · intro h i
    rw [BitVec.getLsbD, h, Nat.zero_testBit]
  · exact Nat.zero_of_testBit_eq_false

/-- BIT leaves in V bit 6 of the operand (R134). -/
theorem bitTest_overflow (m : Byte) (s : State) : (bitTest m s).flag .v = m.getLsbD 6 :=
  readFlag_writeFlag_same _ _ _

/-- BIT leaves in N bit 7 of the operand (R134). -/
theorem bitTest_negative (m : Byte) (s : State) : (bitTest m s).flag .n = m.getLsbD 7 := by
  rw [bitTest, State.setP_flag, readFlag_writeFlag_other _ _ (by decide), readFlag_writeFlag_same]

/-- The handler of BIT meets R134. -/
theorem bitTest_testsBits (m : Byte) (s : State) : TestsBits s (bitTest m s) m := by
  obtain ⟨hzero, -, hcarry⟩ := bitTest_flags m s
  exact ⟨hzero.trans (and_toNat_eq_zero_iff s.a m), bitTest_negative m s, bitTest_overflow m s,
    rfl, hcarry⟩

/-- No handler but that of BIT writes V (R134, U6). -/
theorem handlerRan_keeps_overflow {prof : Profile} {k : Fin 8} {op : Operation} {m : Option Byte}
    {s t : State} (h : HandlerRan prof k m s op t) (hop : op ≠ .bit) : t.flag .v = s.flag .v := by
  cases h with
  | @adc b _ =>
    obtain ⟨-, hv⟩ := addWithCarry_flags b s
    exact hv
  | @and b _ =>
    obtain ⟨-, -, hv⟩ := bitwiseAnd_flags b s
    exact hv
  | asl =>
    obtain ⟨-, hv⟩ := shiftLeft_flags prof k s
    exact hv
  | bit _ => exact absurd rfl hop
  | nop => rfl
  | @branch _ b _ _ =>
    obtain ⟨-, hp⟩ := branchIf_flags prof (branchTaken op s) b s
    exact congrArg (readFlag · .v) hp

/-- Settles O1: the handler runs `addWithCarry`, and no handler touches the rest. -/
theorem addWithCarryHandler : Obligations.AddWithCarryHandler := fun prof k m s =>
  have hrun : execute prof k .adc (some m) s = .next (addWithCarry m s) := rfl
  ⟨_, hrun, addWithCarry_addsWithCarry m s, rfl, rfl, execute_sameRest hrun⟩

/-- Settles O2: the handler runs `bitwiseAnd`, and no handler touches the rest. -/
theorem bitwiseAndHandler : Obligations.BitwiseAndHandler := fun prof k m s =>
  have hrun : execute prof k .and (some m) s = .next (bitwiseAnd m s) := rfl
  ⟨_, hrun, bitwiseAnd_andsAccumulator m s, rfl, rfl, execute_sameRest hrun⟩

/-- Settles O4: the handler runs `bitTest`, and each other handler keeps V. -/
theorem bitTestHandler : Obligations.BitTestHandler := by
  constructor
  · intro prof k m s
    have hrun : execute prof k .bit (some m) s = .next (bitTest m s) := rfl
    exact ⟨_, hrun, bitTest_testsBits m s, rfl, rfl, execute_sameRest hrun⟩
  · intro prof k op m s t hop hrun
    exact handlerRan_keeps_overflow (execute_next hrun) hop

/-- Settles O5: the step of a no-operation is its commit, with no operand byte and no page to cross. -/
theorem noOperationOnlyAdvances : Obligations.NoOperationOnlyAdvances := by
  intro prof k base pen s
  have hrun : complete prof k .nop (resolve prof .imp s) base pen s =
      .next (commit 0 (cost base pen false) s) := rfl
  exact ⟨_, hrun, commit_onlyControl _ _ s, commit_pc_toNat _ _ s, rfl⟩

end Sys2Proof.Proofs.AluHandlers

/-! The range of a displacement under each profile (spec/43_branches.md R170). -/

namespace Sys2Proof.Proofs.Displacement

open Sys2Proof.Machine Sys2Proof.Claims Sys2Proof.Proofs.ProgramCounter

/-- Under REFERENCE the byte is sign and magnitude, so its reading is symmetric about 0. -/
theorem signedDisplacement_reference_bounds (m : Byte) :
    -127 ≤ signedDisplacement .reference m ∧ signedDisplacement .reference m ≤ 127 := by
  have hm : m.toNat < 256 := m.isLt
  simp only [signedDisplacement, if_true]
  split <;> omega

/-- Under CORRECTED the byte is in two's complement, so its reading goes one further down. -/
theorem signedDisplacement_corrected_bounds (m : Byte) :
    -128 ≤ signedDisplacement .corrected m ∧ signedDisplacement .corrected m ≤ 127 := by
  have hm : m.toNat < 256 := m.isLt
  simp only [signedDisplacement, reduceCtorEq, if_false]
  split <;> omega

/-- Settles O6: the handler reads the byte as R170 does, and each profile's reading has its range. -/
theorem displacementReading : Obligations.DisplacementReading := by
  intro prof m
  rw [displacement_eq_signedDisplacement]
  refine ⟨rfl, ?_⟩
  cases prof with
  | reference => exact signedDisplacement_reference_bounds m
  | corrected => exact signedDisplacement_corrected_bounds m

end Sys2Proof.Proofs.Displacement

/-! The cycles a completed step costs (spec/44_timing.md R191): the commit charges them, and no handler touches the counter. -/

namespace Sys2Proof.Proofs.StepTiming

open Sys2Proof.Machine

/-- The end of a step charges the base, and the penalty exactly when the resolver reported a crossing (R191). -/
theorem complete_cyc {prof : Profile} {k : Fin 8} {op : Operation} {r : Resolved} {base pen : Nat}
    {s t : State} (h : complete prof k op r base pen s = .next t) :
    t.cyc = s.cyc + base + (if r.crossed = true then pen else 0) := by
  obtain ⟨-, -, -, -, -, hcyc⟩ := complete_next h
  rw [hcyc, cost, Nat.add_assoc]

/-- Settles O27: a completed step is its end run on the entries its opcode has in the tables, and the cost is charged there. -/
theorem stepCost : Obligations.StepCost := by
  intro c s t h
  obtain ⟨op, mode, tm, -, hmode, htiming, hcomplete⟩ := tableStep_next h
  exact ⟨mode, tm, hmode, htiming, complete_cyc hcomplete⟩

end Sys2Proof.Proofs.StepTiming

/-! What the host reads and what it gets back (spec/60_exceptions.md R219). -/

namespace Sys2Proof.Proofs.Introspection

open Sys2Proof.Machine Sys2Proof.Claims

/-- A flag as a number is its place of `P`. -/
theorem flag_toNat (s : State) (f : Flag) :
    (s.flag f).toNat = s.p.toNat / 2 ^ flagBit f % 2 := by
  rw [State.flag, readFlag_eq_bit, BitVec.getLsbD, Nat.toNat_testBit]

/-- A read leaves the state as it is and replies with the value of the query (R219). -/
theorem hostAct_read (c : Config) (q : Query) (s : State) :
    hostAct c (.read q) s = (s, .value (answer q s)) := rfl

/-- Settles O45: a flag is one bit of P by `flag_toNat`; the other queries answer the field or the byte itself. -/
theorem introspectionChangesNothing : Obligations.IntrospectionChangesNothing := by
  intro c q s
  have hflag (f : Flag) : answer (.flag f) s = s.p.toNat / 2 ^ flagBit f % 2 := flag_toNat s f
  have hmem (a : Addr) : answer (.mem a) s = (byteAt s a.toNat).toNat := rfl
  exact ⟨hostAct_read c q s, rfl, rfl, rfl, rfl, rfl, rfl, rfl, hflag, hmem⟩

end Sys2Proof.Proofs.Introspection

/-! Loading bytes into memory (spec/70_reset_and_hazards.md R234): what the copying loop leaves at each address, and the two outcomes of a load. -/

namespace Sys2Proof.Proofs.LoadBytes

open Sys2Proof.Machine

/-- The copying loop leaves every address outside its range as it was. -/
theorem loadLoop_read_outside (m : Memory) {offset a : Nat} (data : List Byte)
    (h : a < offset ∨ offset + data.length ≤ a) :
    Memory.read (loadLoop m offset data) a = Memory.read m a := by
  induction data generalizing m offset with
  | nil => rfl
  | cons b data ih =>
    rw [List.length_cons] at h
    calc Memory.read (loadLoop (Memory.write m offset b) (offset + 1) data) a
        = Memory.read (Memory.write m offset b) a := ih _ (by omega)
      _ = Memory.read m a := Memory.read_write_other m b (by omega)

/-- The copying loop leaves byte `i` of the data at `offset + i`: its first write is outside the range of the writes after it. -/
theorem loadLoop_read_data {m : Memory} {offset : Nat} {data : List Byte}
    (hwf : Memory.wf m = true) (hend : offset + data.length ≤ 65536) {i : Nat}
    (hi : i < data.length) : Memory.read (loadLoop m offset data) (offset + i) = data[i] := by
  induction data generalizing m offset i with
  | nil => cases hi
  | cons b data ih =>
    rw [List.length_cons] at hi hend
    cases i with
    | zero =>
      calc Memory.read (loadLoop (Memory.write m offset b) (offset + 1) data) offset
          = Memory.read (Memory.write m offset b) offset :=
            loadLoop_read_outside _ data (.inl (Nat.lt_succ_self offset))
        _ = b := Memory.read_write_same offset b hwf
    | succ i =>
      rw [loadLoop, ← Nat.add_assoc, Nat.add_right_comm]
      exact ih (Memory.wf_write b hwf (by omega)) (by omega) (Nat.lt_of_succ_lt_succ hi)

/-- A load that would pass the end of memory raises `OutOfBounds` (R204). -/
theorem loadBytes_of_lt {data : List Byte} {offset : Nat} (s : State)
    (h : 65536 < offset + data.length) : loadBytes data offset s = .fault .outOfBounds :=
  if_pos h

/-- A load that ends inside memory runs the copying loop and touches no register. -/
theorem loadBytes_of_le {data : List Byte} {offset : Nat} (s : State)
    (h : offset + data.length ≤ 65536) :
    loadBytes data offset s = .next (s.setMem (loadLoop s.mem offset data)) :=
  if_neg (Nat.not_lt.mpr h)

/-- The host's load answers what `loadBytes` does. -/
theorem hostAct_load (c : Config) (data : List Byte) (offset : Nat) (s : State) :
    hostAct c (.load data offset) s = settleOutcome s (loadBytes data offset s) := rfl

/-- Settles O42: the bound decides the outcome, and inside it the copying loop writes the data and nothing else. -/
theorem loadBytesContract : Obligations.LoadBytesContract := by
  intro c data offset s hwf
  refine ⟨fun hlt => ?_, fun hle => ?_⟩
  · rw [hostAct_load, loadBytes_of_lt s hlt, settleOutcome_fault]
  · have hload := loadBytes_of_le s hle
    refine ⟨_, hload, ?_, fun i hi => ?_, fun a ha => ?_, rfl, rfl, rfl, rfl, rfl, rfl, rfl⟩
    · rw [hostAct_load, hload, settleOutcome_next]
    · exact loadLoop_read_data hwf hle hi
    · exact loadLoop_read_outside s.mem data ha

end Sys2Proof.Proofs.LoadBytes

/-! Reset and construction (spec/70_reset_and_hazards.md R230, R231). -/

namespace Sys2Proof.Proofs.Reset

open Sys2Proof.Machine

/-- Reset makes every byte of memory 0x00 (R230). -/
theorem readByte_resetOf (c : Config) (a : Addr) : readByte (resetOf c) a = 0#8 := rfl

/-- The host's reset gives the reset state of the core's configuration, whatever the state before (R230). -/
theorem hostAct_reset (c : Config) (s : State) : hostAct c .reset s = (resetOf c, .done) := rfl

/-- This core's reset state is that of its configuration. -/
theorem reset_eq_resetOf_machineConfig : State.reset = resetOf machineConfig := rfl

/-- Settles O34: the reset state of a configuration is written out field by field, with no byte listed in memory. -/
theorem resetAssignsAllState : Obligations.ResetAssignsAllState :=
  ⟨fun c => ⟨rfl, rfl, rfl, rfl, rfl, rfl, rfl, readByte_resetOf c, hostAct_reset c⟩,
    reset_eq_resetOf_machineConfig⟩

/-- Settles O35: an entry address inside memory is a 16-bit word, so the core built keeps it and is reset to it. -/
theorem constructionChecksEntry : Obligations.ConstructionChecksEntry := by
  intro c e
  refine ⟨fun hle => ?_, construct_of_lt c⟩
  have hentry : (BitVec.ofNat 16 e).toNat = e :=
    (BitVec.toNat_ofNat e 16).trans (Nat.mod_eq_of_lt (Nat.lt_succ_of_le hle))
  exact ⟨_, construct_of_le c hle, hentry, rfl, rfl, hentry, hostAct_reset _⟩

end Sys2Proof.Proofs.Reset

/-! The round trips of the decoder and the encoder (spec/30_encoding.md): a template claims an opcode byte exactly when the encodings of the instructions it makes begin with that byte. -/

namespace Sys2Proof.Proofs.Encoding

open Sys2Proof.Claims

/-- The high and the low byte of an address, joined, are the address (R44). -/
theorem joinBytes_highByte_lowByte (a : Addr) : joinBytes (highByte a) (lowByte a) = a :=
  calc joinBytes (highByte a) (lowByte a)
      = a.extractLsb' 0 16 := BitVec.extractLsb'_append_extractLsb'_eq_extractLsb' rfl
    _ = a := BitVec.extractLsb'_eq_self

theorem lowByte_joinBytes (hi lo : Byte) : lowByte (joinBytes hi lo) = lo :=
  BitVec.extractLsb'_append_eq_right

theorem highByte_joinBytes (hi lo : Byte) : highByte (joinBytes hi lo) = hi :=
  BitVec.extractLsb'_append_eq_left

/-- Settles O46: the template of the opcode byte puts the operand together from the bytes the encoder cut it into. -/
theorem decodeEncodeRoundTrip : Obligations.DecodeEncodeRoundTrip := by
  intro i rest
  cases i <;> simp [encode, decode, templateOf, fillTemplate, joinBytes_highByte_lowByte]

/-- The instructions a template makes are encoded as the opcode byte and the operand bytes its format takes (R61, R63). -/
def Encodes (op : Byte) : Template → Prop
  | .bare i => encode i = [op]
  | .one f => ∀ b0, encode (f b0) = [op, b0]
  | .two f => ∀ addr, encode (f addr) = [op, lowByte addr, highByte addr]

/-- The opcode map matches on the byte's value; the encoder writes the byte itself. -/
theorem encodes_of_toNat {op : Byte} {n : Nat} (h : op.toNat = n) {t : Template}
    (ht : Encodes (BitVec.ofNat 8 n) t) : Encodes op t := by
  subst h
  rwa [BitVec.ofNat_toNat, BitVec.setWidth_eq] at ht

/-- The opcode map and the encoder agree on every row (R64). -/
theorem encodes_of_templateOf {op : Byte} {t : Template} (h : templateOf op = some t) :
    Encodes op t := by
  unfold templateOf at h
  split at h
  all_goals cases h
  all_goals exact encodes_of_toNat ‹op.toNat = _› (by simp [Encodes, encode])

/-- A list that decodes is an opcode byte with a template, and bytes that fill it. -/
theorem exists_template_of_decode {bytes rest : List Byte} {i : Instr} (h : decode bytes = .instr i rest) :
    ∃ op operands t, bytes = op :: operands ∧ templateOf op = some t ∧
      fillTemplate op t operands = .instr i rest := by
  cases bytes with
  | nil => cases h
  | cons op operands =>
    simp only [decode] at h
    split at h
    · cases h
    · exact ⟨op, operands, _, rfl, ‹_›, h⟩

/-- A filled template took exactly the operand bytes of its instruction. -/
theorem encode_of_fillTemplate {op : Byte} {t : Template} {operands rest : List Byte} {i : Instr}
    (henc : Encodes op t) (h : fillTemplate op t operands = .instr i rest) :
    op :: operands = encode i ++ rest := by
  unfold fillTemplate at h
  split at h
  · cases h; rw [henc]; rfl
  · cases h; rw [henc]; rfl
  · cases h; rw [henc, lowByte_joinBytes, highByte_joinBytes]; rfl
  all_goals cases h

/-- Settles O47: the decoder follows the opcode map, and the encoder agrees with the map on every row. -/
theorem encodeDecodeRoundTrip : Obligations.EncodeDecodeRoundTrip := by
  intro bytes i rest h
  obtain ⟨op, operands, t, rfl, ht, hfill⟩ := exists_template_of_decode h
  exact encode_of_fillTemplate (encodes_of_templateOf ht) hfill

/-- The opcode map has the 32 bytes of R64 and no other. -/
theorem templateOf_isSome_iff (op : Byte) : (templateOf op).isSome = true ↔ op ∈ legalOpcodes := by
  revert op
  decide

/-- With two bytes after it, an opcode byte that has a template decodes (R60). -/
theorem fillTemplate_two_operands (op b0 b1 : Byte) (t : Template) :
    ∃ i rest, fillTemplate op t [b0, b1] = .instr i rest := by
  cases t <;> exact ⟨_, _, rfl⟩

/-- A byte of the table, and two more, decode (R64). -/
theorem decode_of_mem_legalOpcodes {op : Byte} (h : op ∈ legalOpcodes) (b0 b1 : Byte) :
    ∃ i rest, decode [op, b0, b1] = .instr i rest := by
  obtain ⟨t, ht⟩ := Option.isSome_iff_exists.mp ((templateOf_isSome_iff op).mpr h)
  simp only [decode, ht]
  exact fillTemplate_two_operands op b0 b1 t

/-- A byte outside the table is refused, whatever follows it (R66). -/
theorem decode_of_not_mem_legalOpcodes {op : Byte} (h : op ∉ legalOpcodes) (rest : List Byte) :
    decode (op :: rest) = .refused (.illegalOpcode op) := by
  have hnone : templateOf op = none := by
    rwa [← templateOf_isSome_iff, Option.not_isSome_iff_eq_none] at h
  simp only [decode, hnone]

/-- Settles O48: the two outcomes exclude each other, and a byte of the table has the first, any other the second. -/
theorem exactlyTheTableDecodes : Obligations.ExactlyTheTableDecodes := by
  intro op b0 b1
  by_cases h : op ∈ legalOpcodes
  · obtain ⟨i, rest, hdecode⟩ := decode_of_mem_legalOpcodes h b0 b1
    simp [h, hdecode]
  · simp [h, decode_of_not_mem_legalOpcodes h]

/-- Settles O49: the decoder runs on the written bytes. -/
theorem writtenWordsDecode : Obligations.WrittenWordsDecode := by
  unfold Obligations.WrittenWordsDecode
  decide

end Sys2Proof.Proofs.Encoding

/-! The row of the opcode table behind each instruction (spec/30_encoding.md R64, spec/44_timing.md R192): its operation, its mode, its timing entry, and the operand it resolves. -/

namespace Sys2Proof.Proofs.InstructionRows

open Sys2Proof.Machine Sys2Proof.Claims

/-- The operation of an instruction. -/
def operationOf : Instr → Operation
  | .adcImm _ | .adcZp _ | .adcZpx _ | .adcAbs _ | .adcAbx _ | .adcAby _ | .adcInx _ | .adcIny _ => .adc
  | .andImm _ | .andZp _ | .andZpx _ | .andAbs _ | .andAbx _ | .andAby _ | .andInx _ | .andIny _ => .and
  | .aslAcc | .aslZp _ | .aslZpx _ | .aslAbs _ | .aslAbx _ => .asl
  | .bitZp _ | .bitAbs _ => .bit
  | .nop => .nop
  | .bcc _ => .bcc
  | .bcs _ => .bcs
  | .beq _ => .beq
  | .bne _ => .bne
  | .bmi _ => .bmi
  | .bpl _ => .bpl
  | .bvc _ => .bvc
  | .bvs _ => .bvs

/-- The addressing mode of an instruction. -/
def modeOf : Instr → Mode
  | .adcImm _ | .andImm _ => .imm
  | .adcZp _ | .andZp _ | .aslZp _ | .bitZp _ => .zp
  | .adcZpx _ | .andZpx _ | .aslZpx _ => .zpx
  | .adcAbs _ | .andAbs _ | .aslAbs _ | .bitAbs _ => .abs
  | .adcAbx _ | .andAbx _ | .aslAbx _ => .abx
  | .adcAby _ | .andAby _ => .aby
  | .adcInx _ | .andInx _ => .inx
  | .adcIny _ | .andIny _ => .iny
  | .aslAcc => .acc
  | .nop => .imp
  | .bcc _ | .bcs _ | .beq _ | .bne _ | .bmi _ | .bpl _ | .bvc _ | .bvs _ => .rel

/-- The timing entry of an instruction. -/
def timingOf : Instr → Timing
  | .adcImm _ | .andImm _ | .aslAcc | .nop => ⟨2, 0⟩
  | .bcc _ | .bcs _ | .beq _ | .bne _ | .bmi _ | .bpl _ | .bvc _ | .bvs _ => ⟨2, 0⟩
  | .adcZp _ | .andZp _ | .bitZp _ => ⟨3, 0⟩
  | .adcZpx _ | .andZpx _ | .adcAbs _ | .andAbs _ | .bitAbs _ => ⟨4, 0⟩
  | .adcAbx _ | .andAbx _ | .adcAby _ | .andAby _ => ⟨4, 1⟩
  | .adcIny _ | .andIny _ => ⟨5, 1⟩
  | .aslZp _ => ⟨5, 0⟩
  | .adcInx _ | .andInx _ | .aslZpx _ | .aslAbs _ => ⟨6, 0⟩
  | .aslAbx _ => ⟨7, 0⟩

/-- What the operand bytes an instruction carries resolve to in a state. -/
def operandOf (s : State) : Instr → Resolved
  | .adcImm m | .andImm m => resolveImm m s
  | .adcZp b0 | .andZp b0 | .aslZp b0 | .bitZp b0 => resolveZp b0 s
  | .adcZpx b0 | .andZpx b0 | .aslZpx b0 => resolveZpx Params.profile b0 s
  | .adcAbs addr | .andAbs addr | .aslAbs addr | .bitAbs addr => resolveAbs addr s
  | .adcAbx addr | .andAbx addr | .aslAbx addr => resolveAbx addr s
  | .adcAby addr | .andAby addr => resolveAby addr s
  | .adcInx b0 | .andInx b0 => resolveInx Params.profile b0 s
  | .adcIny b0 | .andIny b0 => resolveIny Params.profile b0 s
  | .aslAcc => resolveAcc s
  | .nop => resolveImp
  | .bcc m | .bcs m | .beq m | .bne m | .bmi m | .bpl m | .bvc m | .bvs m => resolveRel m

/-- The meaning of an instruction is the end of a step on its row (R80). -/
theorem exec_eq_runForm (i : Instr) (s : State) :
    exec i s = runForm (operationOf i) (operandOf s i) (timingOf i).base (timingOf i).pen s := by
  cases i <;> rfl

/-- The three default tables hold an instruction's row under its opcode byte (R64, R192). -/
theorem lookup_row (i : Instr) : ∃ op operands, encode i = op :: operands ∧
    defaultOpTable.lookup op = some (operationOf i) ∧
    defaultModeTable.lookup op = some (modeOf i) ∧
    defaultTimeTable.lookup op = some (timingOf i) := by
  cases i <;> exact ⟨_, _, rfl, rfl, rfl, rfl⟩

/-- The operand byte the resolver reads is the one fetched after the opcode (R63). -/
theorem readByte_of_fetchBytes {s : State} {op b0 : Byte} {rest : List Byte}
    (h : fetchBytes s = [op, b0] ++ rest) : readByte s (pc1 s) = b0 := by
  simp only [fetchBytes, List.cons_append, List.cons.injEq] at h
  obtain ⟨-, hb0, -⟩ := h
  exact hb0

/-- The address the resolver reads is joined from the two bytes fetched after the opcode (R63). -/
theorem readWord_of_fetchBytes {s : State} {op : Byte} {addr : Addr} {rest : List Byte}
    (h : fetchBytes s = [op, lowByte addr, highByte addr] ++ rest) :
    readWord s (pc1 s) = addr := by
  simp only [fetchBytes, List.cons_append, List.cons.injEq] at h
  obtain ⟨-, hlo, hhi, -⟩ := h
  have hnext : pc1 s + 1#16 = s.pc + 2#16 := BitVec.add_assoc _ _ _
  rw [readWord, hnext, hhi, pc1, hlo, Encoding.joinBytes_highByte_lowByte]

/-- The operand of a fetched instruction is what the resolver yields in its mode (R84). -/
theorem operandOf_eq_resolve {i : Instr} {s : State} {rest : List Byte}
    (h : fetchBytes s = encode i ++ rest) :
    operandOf s i = resolve Params.profile (modeOf i) s := by
  cases i with
  | aslAcc | nop => rfl
  | adcAbs _ | adcAbx _ | adcAby _ | andAbs _ | andAbx _ | andAby _ | aslAbs _ | aslAbx _
  | bitAbs _ => simp only [operandOf, modeOf, resolve, readWord_of_fetchBytes h]
  | adcImm _ | adcZp _ | adcZpx _ | adcInx _ | adcIny _ | andImm _ | andZp _ | andZpx _
  | andInx _ | andIny _ | aslZp _ | aslZpx _ | bitZp _ | bcc _ | bcs _ | beq _ | bne _
  | bmi _ | bpl _ | bvc _ | bvs _ =>
    simp only [operandOf, modeOf, resolve, readByte_of_fetchBytes h]

end Sys2Proof.Proofs.InstructionRows

/-! The step of this core is the table-driven step of spec/40_step_dispatch.md R80, and what well-formed tables make of that step. -/

namespace Sys2Proof.Proofs.StepRefinement

open Sys2Proof.Machine Sys2Proof.Claims Sys2Proof.Proofs.Encoding Sys2Proof.Proofs.InstructionRows

/-- An opcode in all three tables runs to the end of the step (R80). -/
theorem tableStep_of_lookup {c : Config} {s : State} {op : Operation} {mode : Mode} {tm : Timing}
    (hop : c.opTable.lookup (readByte s s.pc) = some op)
    (hmode : c.modeTable.lookup (readByte s s.pc) = some mode)
    (htm : c.timeTable.lookup (readByte s s.pc) = some tm) :
    tableStep c s =
      complete c.profile c.aslCarryBit op (resolve c.profile mode s) tm.base tm.pen s := by
  simp only [tableStep, hop, hmode, htm]

/-- An opcode outside the operation table is illegal (R82). -/
theorem tableStep_of_op_none {c : Config} {s : State}
    (hop : c.opTable.lookup (readByte s s.pc) = none) :
    tableStep c s = .fault (.illegalOpcode (readByte s s.pc) s.pc) := by
  simp only [tableStep, hop, raise]

/-- The host's step is the table-driven one (R222). -/
theorem hostAct_step (c : Config) (s : State) :
    hostAct c .step s = settleOutcome s (tableStep c s) := rfl

/-- The operation table has the 32 bytes of R64 and no other. -/
theorem lookup_defaultOpTable_eq_none_iff (op : Byte) :
    defaultOpTable.lookup op = none ↔ op ∉ legalOpcodes := by
  revert op
  decide

/-- When the fetched bytes are an instruction's, the table-driven step runs it. -/
theorem tableStep_of_fetchBytes {i : Instr} {s : State} {rest : List Byte}
    (h : fetchBytes s = encode i ++ rest) : tableStep machineConfig s = exec i s := by
  obtain ⟨op, operands, henc, hop, hmode, htm⟩ := lookup_row i
  have hopcode : readByte s s.pc = op := by
    rw [henc] at h
    exact (List.cons.inj h).1
  subst hopcode
  rw [exec_eq_runForm, operandOf_eq_resolve h]
  exact tableStep_of_lookup hop hmode htm

/-- The step decodes the bytes at PC, so on a byte outside the table it raises `IllegalOpcode` (R82). -/
theorem step_of_not_mem_legalOpcodes {s : State} (h : readByte s s.pc ∉ legalOpcodes) :
    step s = .fault (.illegalOpcode (readByte s s.pc) s.pc) := by
  simp only [step, fetchBytes, decode_of_not_mem_legalOpcodes h, decodeStop, raise]

/-- A step whose fetched bytes decode runs the instruction (R80). -/
theorem step_of_decode {s : State} {i : Instr} {rest : List Byte}
    (h : decode (fetchBytes s) = .instr i rest) : step s = exec i s := by
  simp only [step, h]

/-- The step by decoding is the step by table lookup: on a byte of the table both run its row, on any other both raise `IllegalOpcode`. -/
theorem step_eq_tableStep (s : State) : step s = tableStep machineConfig s := by
  by_cases h : readByte s s.pc ∈ legalOpcodes
  · obtain ⟨i, rest, hdecode⟩ :=
      decode_of_mem_legalOpcodes h (readByte s (s.pc + 1#16)) (readByte s (s.pc + 2#16))
    rw [step_of_decode hdecode, tableStep_of_fetchBytes (encodeDecodeRoundTrip _ _ _ hdecode)]
  · rw [step_of_not_mem_legalOpcodes h,
      tableStep_of_op_none ((lookup_defaultOpTable_eq_none_iff _).mpr h)]

/-- Settles O22: `step_eq_tableStep`, by the decoder's and the encoder's agreement on every row. -/
theorem stepRefinesTableStep : Obligations.StepRefinesTableStep := fun s =>
  ⟨step_eq_tableStep s, by rw [step_eq_tableStep, hostAct_step]⟩

/-- The fetched bytes, at their addresses as numbers (R43, R81). -/
theorem fetchBytes_eq_byteAt (s : State) :
    fetchBytes s = [byteAt s s.pc.toNat, byteAt s ((s.pc.toNat + 1) % 65536),
      byteAt s ((s.pc.toNat + 2) % 65536)] := by
  simp [fetchBytes, readByte, byteAt, BitVec.toNat_add]

/-- Settles O20: those three bytes are the ones the step decodes. -/
theorem stepRunsDecodedInstruction : Obligations.StepRunsDecodedInstruction := by
  intro s i rest h _
  rw [← fetchBytes_eq_byteAt] at h
  exact step_of_decode h

/-- Settles O23: the lookups are made in that order, and the first that fails ends the step. -/
theorem tableFaultsInOrder : Obligations.TableFaultsInOrder := by
  intro c s
  refine ⟨tableStep_of_op_none, fun hop hmode => ?_, fun hop hmode htm => ?_⟩
  · obtain ⟨op, hop⟩ := Option.ne_none_iff_exists'.mp hop
    simp only [tableStep, hop, hmode, raise]
  · obtain ⟨op, hop⟩ := Option.ne_none_iff_exists'.mp hop
    obtain ⟨mode, hmode⟩ := Option.ne_none_iff_exists'.mp hmode
    simp only [tableStep, hop, hmode, htm, raise]

/-- What a lookup finds is a row of the table (R6). -/
theorem mem_of_lookup {α : Type} {table : List (Byte × α)} {op : Byte} {v : α}
    (h : table.lookup op = some v) : (op, v) ∈ table := by
  obtain ⟨before, after, rfl, -⟩ := List.lookup_eq_some_iff.mp h
  simp

/-- An opcode a table names is found in it (R6). -/
theorem lookup_of_mem_domain {α : Type} {table : List (Byte × α)} {op : Byte}
    (h : op ∈ Config.domain table) : ∃ v, table.lookup op = some v := by
  obtain ⟨row, hrow, rfl⟩ := List.mem_map.mp h
  exact Option.isSome_iff_exists.mp (List.lookup_isSome_iff.mpr ⟨row, hrow, beq_self_eq_true _⟩)

/-- R65: complete tables give every opcode of the operation table a mode and a timing entry. -/
theorem lookup_of_tablesComplete {c : Config} (hc : c.tablesComplete = true) {opcode : Byte}
    {op : Operation} (hop : c.opTable.lookup opcode = some op) :
    (∃ mode, c.modeTable.lookup opcode = some mode) ∧
      ∃ tm, c.timeTable.lookup opcode = some tm := by
  simp only [Config.tablesComplete, List.all_eq_true, Bool.and_eq_true, List.contains_iff_mem] at hc
  obtain ⟨hmode, htm⟩ := hc opcode (List.mem_map.mpr ⟨_, mem_of_lookup hop, rfl⟩)
  exact ⟨lookup_of_mem_domain hmode, lookup_of_mem_domain htm⟩

/-- U15: supplied operands keep the implied mode from an operation that needs a byte. -/
theorem mode_ne_imp_of_operandsSupplied {c : Config} (hc : c.operandsSupplied = true)
    {opcode : Byte} {op : Operation} {mode : Mode} (hop : c.opTable.lookup opcode = some op)
    (hmode : c.modeTable.lookup opcode = some mode) (hneeds : op.needsOperand = true) :
    mode ≠ .imp := by
  rintro rfl
  have hrow := List.all_eq_true.mp hc _ (mem_of_lookup hop)
  simp [hneeds, hmode] at hrow

/-- A handler that has its byte if it needs one completes (R87). -/
theorem execute_completes (prof : Profile) (k : Fin 8) {op : Operation} {m : Option Byte}
    (s : State) (h : op.needsOperand = true → m ≠ none) :
    ∃ t, execute prof k op m s = .next t := by
  cases m with
  | some b => exact execute_some_completes prof k op b s
  | none =>
    cases op with
    | asl | nop => exact ⟨_, rfl⟩
    | _ => exact absurd rfl (h rfl)

/-- Settles O24: a mode and a timing entry are found for every operation, and the operand it needs is there. -/
theorem wellFormedTablesNeverFailLater : Obligations.WellFormedTablesNeverFailLater := by
  intro c s hc
  simp only [Config.wellFormed, Bool.and_eq_true] at hc
  obtain ⟨⟨hcomplete, hsupplied⟩, -⟩ := hc
  refine ⟨fun hop => ?_, tableStep_of_op_none⟩
  obtain ⟨op, hop⟩ := Option.ne_none_iff_exists'.mp hop
  obtain ⟨⟨mode, hmode⟩, tm, htm⟩ := lookup_of_tablesComplete hcomplete hop
  rw [tableStep_of_lookup hop hmode htm]
  refine execute_completes _ _ _ fun hneeds hnone => ?_
  exact mode_ne_imp_of_operandsSupplied hsupplied hop hmode hneeds ((resolve_yields _ _ _).mp hnone)

/-- Settles O25: the 32 rows of each table are compared. -/
theorem machineConfigWellFormed : Obligations.MachineConfigWellFormed := by
  unfold Obligations.MachineConfigWellFormed
  decide

/-- Settles O21: this core's tables are well formed and have the 32 opcodes of R64. -/
theorem stepCompletesOrIllegalOpcode : Obligations.StepCompletesOrIllegalOpcode := by
  intro s
  obtain ⟨hwf, -⟩ := machineConfigWellFormed
  obtain ⟨hcompletes, -⟩ := wellFormedTablesNeverFailLater machineConfig s hwf
  rw [step_eq_tableStep]
  have hnone := lookup_defaultOpTable_eq_none_iff (readByte s s.pc)
  exact ⟨fun hmem => hcompletes (hnone.not.mpr (not_not.mpr hmem)),
    fun hmem => tableStep_of_op_none (hnone.mpr hmem)⟩

end Sys2Proof.Proofs.StepRefinement

/-! What a completed step leaves alone and what it costs (spec/40_step_dispatch.md R90, spec/10_state.md R36), for one step and along a run. -/

namespace Sys2Proof.Proofs.StepFrame

open Sys2Proof.Machine Sys2Proof.Claims Sys2Proof.Proofs.FlagWrites Sys2Proof.Proofs.AluHandlers
  Sys2Proof.Proofs.StepTiming Sys2Proof.Proofs.InstructionRows Sys2Proof.Proofs.StepRefinement

theorem sameRest_refl (s : State) : SameRest s s :=
  ⟨rfl, rfl, rfl, fun _ => rfl, fun _ _ _ => rfl⟩

theorem sameRest_trans {s t u : State} (hst : SameRest s t) (htu : SameRest t u) : SameRest s u := by
  obtain ⟨hx, hy, hsp, hmem, hp⟩ := hst
  obtain ⟨hx', hy', hsp', hmem', hp'⟩ := htu
  exact ⟨hx'.trans hx, hy'.trans hy, hsp'.trans hsp, fun a => (hmem' a).trans (hmem a),
    fun i hlo hhi => (hp' i hlo hhi).trans (hp i hlo hhi)⟩

/-- A step of this core found its opcode in the three default tables and ran to its end (R80). -/
theorem step_next {s t : State} (h : step s = .next t) :
    ∃ op mode tm, defaultOpTable.lookup (readByte s s.pc) = some op ∧
      defaultTimeTable.lookup (readByte s s.pc) = some tm ∧
      complete Params.profile Params.aslCarryBit op (resolve Params.profile mode s) tm.base tm.pen s
        = .next t := by
  rw [step_eq_tableStep] at h
  obtain ⟨op, mode, tm, hop, -, htm, hcomplete⟩ := tableStep_next h
  exact ⟨op, mode, tm, hop, htm, hcomplete⟩

theorem commit_sameRest (n k : Nat) (s : State) : SameRest s (commit n k s) := sameRest_refl s

/-- Neither the commit nor the handler touches what R36 says no instruction does. -/
theorem complete_sameRest {prof : Profile} {k : Fin 8} {op : Operation} {r : Resolved}
    {base pen : Nat} {s t : State} (h : complete prof k op r base pen s = .next t) : SameRest s t :=
  sameRest_trans (commit_sameRest _ _ s) (execute_sameRest h)

/-- Settles O28: the frame is that of the step's end, and the cost is at least the base of a row of the table. -/
theorem completedStepChangesAtMost : Obligations.CompletedStepChangesAtMost := by
  intro c s t h
  obtain ⟨op, mode, tm, -, -, htm, hcomplete⟩ := tableStep_next h
  refine ⟨complete_sameRest hcomplete, tableStep_mem h, fun hbase => ?_⟩
  have hpos : 1 ≤ tm.base := hbase _ (mem_of_lookup htm)
  rw [complete_cyc hcomplete]
  omega

/-- Settles O37: the step's end leaves memory and the reserved bits of P as they are. -/
theorem stepKeepsInvariant : Obligations.StepKeepsInvariant := by
  intro s t ⟨hwf, hreserved⟩ h
  obtain ⟨op, mode, tm, -, -, hcomplete⟩ := step_next h
  obtain ⟨-, -, -, hmem, hkeep, -⟩ := complete_next hcomplete
  exact ⟨hmem ▸ hwf, hkeep.trans hreserved⟩

/-- Settles O36: reset's memory lists no byte, and its P is the parameter. -/
theorem resetMeetsInvariant : Obligations.ResetMeetsInvariant :=
  ⟨reset_memory_wf, rfl⟩

/-- The costs of R192 lie between 2 and 7, penalty included. -/
theorem defaultTimeTable_bounds :
    ∀ row ∈ defaultTimeTable, 2 ≤ row.2.base ∧ row.2.base + row.2.pen ≤ 7 := by
  decide

/-- A step of this core costs 2 to 7 cycles (R191, R192). -/
theorem step_cyc_bounds {s t : State} (h : step s = .next t) :
    s.cyc + 2 ≤ t.cyc ∧ t.cyc ≤ s.cyc + 7 := by
  obtain ⟨op, mode, tm, -, htm, hcomplete⟩ := step_next h
  have hbounds : 2 ≤ tm.base ∧ tm.base + tm.pen ≤ 7 := defaultTimeTable_bounds _ (mem_of_lookup htm)
  rw [complete_cyc hcomplete]
  split <;> omega

/-- A run of one step more is a completed step and a run from there (R241). -/
theorem afterSteps_succ {n : Nat} {s t : State} (h : afterSteps (n + 1) s = some t) :
    ∃ u, step s = .next u ∧ afterSteps n u = some t := by
  simp only [afterSteps] at h
  split at h
  · exact ⟨_, ‹_›, h⟩
  · cases h
  · cases h

/-- Settles O53, by induction on the number of steps: each adds its frame and its cost to those of the rest. -/
theorem runKeepsFrameAndChargesEveryStep : Obligations.RunKeepsFrameAndChargesEveryStep := by
  intro n
  induction n with
  | zero =>
    intro s t h
    cases h
    exact ⟨sameRest_refl s, rfl, Nat.le_refl _, Nat.le_refl _⟩
  | succ n ih =>
    intro s t h
    obtain ⟨u, hstep, hrun⟩ := afterSteps_succ h
    obtain ⟨hrest, hmem, hmin, hmax⟩ := ih u t hrun
    obtain ⟨hrest', hmem', -⟩ :=
      completedStepChangesAtMost machineConfig s u (step_eq_tableStep s ▸ hstep)
    obtain ⟨hmin', hmax'⟩ := step_cyc_bounds hstep
    exact ⟨sameRest_trans hrest' hrest, hmem.trans hmem', by omega, by omega⟩

/-- Only the handlers of ADC, AND and ASL write A (R36). -/
theorem handlerRan_keeps_a {prof : Profile} {k : Fin 8} {op : Operation} {m : Option Byte}
    {s t : State} (h : HandlerRan prof k m s op t) (hop : op ∉ [.adc, .and, .asl]) : t.a = s.a := by
  cases h with
  | adc _ | and _ | asl => exact absurd hop (by decide)
  | bit _ | nop => rfl
  | branch _ _ => exact (branchIf_flags _ _ _ _).1

/-- The write columns of the access matrix, for the completed step of one operation (R36). -/
theorem complete_writes {prof : Profile} {k : Fin 8} {op : Operation} {r : Resolved}
    {base pen : Nat} {s t : State} (h : complete prof k op r base pen s = .next t) :
    (op ∉ [.adc, .and, .asl] → t.a = s.a) ∧
      (op ∉ [.adc, .asl] → t.flag .c = s.flag .c) ∧ (op ≠ .bit → t.flag .v = s.flag .v) ∧
      (op ∈ .nop :: branchOperations → t.flag .z = s.flag .z ∧ t.flag .n = s.flag .n) := by
  have hexecute : execute prof k op r.m (commit r.n (cost base pen r.crossed) s) = .next t := h
  obtain ⟨hc, hv, -, -, -, hzn⟩ := flagsFromOneByte _ _ _ _ _ _ hexecute
  have ha := handlerRan_keeps_a (execute_next hexecute)
  refine ⟨ha, fun hop => ?_, hv, fun hop => hzn (List.mem_cons.mp hop)⟩
  simp only [List.mem_cons, List.not_mem_nil, or_false, not_or] at hop
  exact hc hop.1 hop.2

theorem writesA_eq (i : Instr) : writesA i = decide (operationOf i ∈ [.adc, .and, .asl]) := by
  cases i <;> rfl

theorem writesC_eq (i : Instr) : writesC i = decide (operationOf i ∈ [.adc, .asl]) := by
  cases i <;> rfl

theorem writesV_eq (i : Instr) : writesV i = decide (operationOf i = .bit) := by
  cases i <;> rfl

theorem writesZN_eq (i : Instr) :
    writesZN i = decide (operationOf i ∉ .nop :: branchOperations) := by
  cases i <;> rfl

/-- Settles O17: an instruction's columns are those of its operation, and the frame is that of the step's end. -/
theorem accessMatrixFrame : Obligations.AccessMatrixFrame := by
  intro i s t h
  rw [exec_eq_runForm] at h
  obtain ⟨ha, hc, hv, hzn⟩ := complete_writes h
  simp only [writesA_eq, writesC_eq, writesV_eq, writesZN_eq, decide_eq_false_iff_not, not_not]
  exact ⟨complete_sameRest h, ha, hc, hv, hzn⟩

/-- The opcodes of BIT (R64). -/
theorem bit_opcodes : ∀ row ∈ defaultOpTable, row.2 = .bit → row.1 ∈ [0x24#8, 0x2C#8] := by
  decide

/-- The opcodes of ADC and ASL (R64). -/
theorem carry_opcodes : ∀ row ∈ defaultOpTable, row.2 ∈ [.adc, .asl] → row.1 ∈
    [0x69#8, 0x65#8, 0x75#8, 0x6D#8, 0x7D#8, 0x79#8, 0x61#8, 0x71#8, 0x0A#8, 0x06#8, 0x16#8, 0x0E#8,
      0x1E#8] := by
  decide

/-- The opcodes of ADC, AND and ASL (R64). -/
theorem accumulator_opcodes : ∀ row ∈ defaultOpTable, row.2 ∈ [.adc, .and, .asl] → row.1 ∈
    [0x69#8, 0x65#8, 0x75#8, 0x6D#8, 0x7D#8, 0x79#8, 0x61#8, 0x71#8, 0x0A#8, 0x06#8, 0x16#8, 0x0E#8,
      0x1E#8, 0x29#8, 0x25#8, 0x35#8, 0x2D#8, 0x3D#8, 0x39#8, 0x21#8, 0x31#8] := by
  decide

/-- Settles O54: what changed names the operation, and the operation table its opcodes. -/
theorem changeNamesTheOpcode : Obligations.ChangeNamesTheOpcode := by
  intro s t h
  obtain ⟨op, mode, tm, hop, -, hcomplete⟩ := step_next h
  obtain ⟨ha, hc, hv, -⟩ := complete_writes hcomplete
  have hrow : (readByte s s.pc, op) ∈ defaultOpTable := mem_of_lookup hop
  refine ⟨fun hchange => ?_, fun hchange => ?_, fun hchange => ?_⟩
  · exact bit_opcodes _ hrow (not_imp_comm.mp hv hchange)
  · exact carry_opcodes _ hrow (not_imp_comm.mp hc hchange)
  · exact accumulator_opcodes _ hrow (not_imp_comm.mp ha hchange)

end Sys2Proof.Proofs.StepFrame

/-! The cycle counter is written and never read (spec/10_state.md R30, spec/44_timing.md R196): each part of a step commutes with adding cycles. -/

namespace Sys2Proof.Proofs.CycleCounter

open Sys2Proof.Machine Sys2Proof.Claims Sys2Proof.Proofs.StepRefinement

/-- The outcome with its next state, if there is one, changed by `f`. -/
def onNext (f : State → State) : Host.Outcome State Fault Refusal → Host.Outcome State Fault Refusal
  | .next t => .next (f t)
  | .fault r => .fault r
  | .refused r => .refused r

theorem branchIf_addCyc (prof : Profile) (cond : Bool) (m : Byte) (s : State) (k : Nat) :
    branchIf prof cond m (s.addCyc k) = (branchIf prof cond m s).addCyc k := by
  cases cond <;> rfl

/-- A handler takes nothing from CYC (R131 to R135, R171). -/
theorem execute_addCyc (prof : Profile) (carryBit : Fin 8) (op : Operation) (m : Option Byte)
    (s : State) (k : Nat) :
    execute prof carryBit op m (s.addCyc k) =
      onNext (fun t => t.addCyc k) (execute prof carryBit op m s) := by
  cases m with
  | none => cases op <;> rfl
  | some b =>
    cases op with
    | adc | and | asl | bit | nop => rfl
    | bcc | bcs | beq | bne | bmi | bpl | bvc | bvs =>
      exact congrArg Host.Outcome.next (branchIf_addCyc _ _ _ _ _)

/-- The charge of a commit is an addition of cycles (R86). -/
theorem commit_eq_addCyc (n c : Nat) (s : State) : commit n c s = (commit n 0 s).addCyc c := rfl

theorem commit_addCyc (n c : Nat) (s : State) (k : Nat) :
    commit n c (s.addCyc k) = (commit n c s).addCyc k :=
  State.eq_of_fields rfl rfl rfl rfl rfl rfl (Nat.add_right_comm _ _ _) rfl

/-- The resolver takes nothing from CYC (R100). -/
theorem resolve_addCyc (prof : Profile) (mode : Mode) (s : State) (k : Nat) :
    resolve prof mode (s.addCyc k) = resolve prof mode s := by
  cases mode <;> rfl

theorem complete_addCyc (prof : Profile) (carryBit : Fin 8) (op : Operation) (r : Resolved)
    (base pen : Nat) (s : State) (k : Nat) :
    complete prof carryBit op r base pen (s.addCyc k) =
      onNext (fun t => t.addCyc k) (complete prof carryBit op r base pen s) := by
  simp only [complete, commit_addCyc, execute_addCyc]

theorem tableStep_addCyc (c : Config) (s : State) (k : Nat) :
    tableStep c (s.addCyc k) = onNext (fun t => t.addCyc k) (tableStep c s) := by
  have hopcode : readByte (s.addCyc k) (s.addCyc k).pc = readByte s s.pc := rfl
  simp only [tableStep, hopcode, resolve_addCyc, complete_addCyc]
  cases c.opTable.lookup (readByte s s.pc) with
  | none => rfl
  | some op =>
    cases c.modeTable.lookup (readByte s s.pc) with
    | none => rfl
    | some mode => cases c.timeTable.lookup (readByte s s.pc) <;> rfl

theorem step_addCyc (s : State) (k : Nat) :
    step (s.addCyc k) = onNext (fun t => t.addCyc k) (step s) := by
  rw [step_eq_tableStep, step_eq_tableStep, tableStep_addCyc]

/-- Settles O52, by induction on the number of steps. -/
theorem cycleCounterIsNeverRead : Obligations.CycleCounterIsNeverRead := by
  intro n k
  induction n with
  | zero => intro s; rfl
  | succ n ih =>
    intro s
    simp only [afterSteps, step_addCyc]
    cases step s with
    | next t => exact ih t
    | fault _ => rfl
    | refused _ => rfl

/-- With another timing entry the step ends in the same state but for CYC (R196). -/
theorem complete_retimed {prof : Profile} {carryBit : Fin 8} {op : Operation} {r : Resolved}
    {base pen : Nat} {s t : State} (h : complete prof carryBit op r base pen s = .next t)
    (base' pen' : Nat) : ∃ (u : State) (k k' : Nat), t = u.addCyc k ∧
      complete prof carryBit op r base' pen' s = .next (u.addCyc k') := by
  rw [complete, commit_eq_addCyc, execute_addCyc] at h
  rw [complete, commit_eq_addCyc, execute_addCyc]
  cases hrun : execute prof carryBit op r.m (commit r.n 0 s) with
  | next u =>
    rw [hrun] at h
    cases h
    exact ⟨u, _, _, rfl, rfl⟩
  | fault _ => rw [hrun] at h; cases h
  | refused _ => rw [hrun] at h; cases h

/-- Settles O51: the timing entry reaches the state through the commit's charge alone. -/
theorem resultsIndependentOfTiming : Obligations.ResultsIndependentOfTiming := by
  intro c table s t h htable
  obtain ⟨op, mode, tm, hop, hmode, -, hcomplete⟩ := tableStep_next h
  obtain ⟨tm', htm'⟩ := Option.ne_none_iff_exists'.mp htable
  obtain ⟨u, k, k', rfl, hretimed⟩ := complete_retimed hcomplete tm'.base tm'.pen
  have hstep : tableStep { c with timeTable := table } s = .next (u.addCyc k') :=
    (tableStep_of_lookup (c := { c with timeTable := table }) hop hmode htm').trans hretimed
  exact ⟨_, hstep, rfl, rfl, rfl, rfl, rfl, rfl, rfl⟩

end Sys2Proof.Proofs.CycleCounter

/-! The host's actions (spec/60_exceptions.md R208, R220 to R222): canonical memory, its writes, and what it sees of a fault. -/

namespace Sys2Proof.Proofs.HostActions

open Sys2Proof.Machine Sys2Proof.Claims Sys2Proof.Proofs.Encoding Sys2Proof.Proofs.StepRefinement
  Sys2Proof.Proofs.LoadBytes Sys2Proof.Proofs.Reset

/-- A completed step leaves memory as it was and a stopped one the whole state, so the host's step keeps memory. -/
theorem hostAct_step_mem (c : Config) (s : State) : (hostAct c .step s).1.mem = s.mem := by
  rw [hostAct_step]
  cases h : tableStep c s with
  | next t => exact tableStep_mem h
  | fault _ => rfl
  | refused _ => rfl

/-- A load keeps memory canonical: past the end of memory it writes nothing. -/
theorem hostAct_load_wf (c : Config) (data : List Byte) (offset : Nat) {s : State}
    (h : Memory.wf s.mem = true) : Memory.wf (hostAct c (.load data offset) s).1.mem = true := by
  rw [hostAct_load]
  by_cases hend : offset + data.length ≤ 65536
  · rw [loadBytes_of_le s hend]
    exact loadLoop_wf offset data h hend
  · rw [loadBytes_of_lt s (Nat.lt_of_not_le hend)]
    exact h

/-- Settles O38: reset lists no byte, a load and a write keep the form, every other action keeps memory. -/
theorem hostActionsKeepCanonicalMemory : Obligations.HostActionsKeepCanonicalMemory := by
  intro c h s hwf
  cases h with
  | reset => rfl
  | load data offset => exact hostAct_load_wf c data offset hwf
  | step => rw [hostAct_step_mem]; exact hwf
  | setMem addr v => exact writeByte_wf addr v hwf
  | read _ | setA _ | setX _ | setY _ | setSp _ | setPc _ | setP _ | setFlag _ _ | stop => exact hwf

theorem read_cons_same (k : Nat) (b : Byte) (m : Memory) : Memory.read ((k, b) :: m) k = b :=
  if_pos rfl

theorem read_cons_other {k a : Nat} (b : Byte) (m : Memory) (h : k ≠ a) :
    Memory.read ((k, b) :: m) a = Memory.read m a :=
  if_neg h

/-- A canonical memory lists no 0x00, so another that reads the same at a listed address does not begin above it. -/
theorem le_of_read_eq {m n : Memory} {k lo : Nat} {b : Byte} (hb : b ≠ 0#8)
    (hn : Memory.wfFrom lo n = true) (h : Memory.read ((k, b) :: m) k = Memory.read n k) :
    lo ≤ k := by
  by_contra hlt
  rw [read_cons_same, Memory.read_of_lt hn (Nat.lt_of_not_le hlt)] at h
  exact hb h

/-- Canonical memories that read the same list the same bytes. -/
theorem eq_of_read_eq {m n : Memory} {lo : Nat} (hm : Memory.wfFrom lo m = true)
    (hn : Memory.wfFrom lo n = true)
    (h : ∀ a, a < 65536 → Memory.read m a = Memory.read n a) : m = n := by
  induction m generalizing lo n with
  | nil =>
    cases n with
    | nil => rfl
    | cons cell n =>
      obtain ⟨k, b⟩ := cell
      obtain ⟨-, hk, hb, -⟩ := (Memory.wfFrom_cons ..).mp hn
      have := le_of_read_eq hb (Memory.wfFrom_nil (k + 1)) (h k hk).symm
      omega
  | cons cell m ih =>
    obtain ⟨k, b⟩ := cell
    obtain ⟨-, hk, hb, hm'⟩ := (Memory.wfFrom_cons ..).mp hm
    cases n with
    | nil =>
      have := le_of_read_eq hb (Memory.wfFrom_nil (k + 1)) (h k hk)
      omega
    | cons cell' n =>
      obtain ⟨k', b'⟩ := cell'
      obtain ⟨hlo, hk', hb', hn'⟩ := (Memory.wfFrom_cons ..).mp hn
      have hle : k' ≤ k := le_of_read_eq hb
        ((Memory.wfFrom_cons ..).mpr ⟨Nat.le_refl k', hk', hb', hn'⟩) (h k hk)
      have hge : k ≤ k' := le_of_read_eq hb'
        ((Memory.wfFrom_cons ..).mpr ⟨Nat.le_refl k, hk, hb, hm'⟩) (h k' hk').symm
      obtain rfl : k = k' := Nat.le_antisymm hge hle
      have hbyte := h k hk
      rw [read_cons_same, read_cons_same] at hbyte
      rw [hbyte, ih hm' hn' fun a ha => ?_]
      by_cases hlt : a < k + 1
      · rw [Memory.read_of_lt hm' hlt, Memory.read_of_lt hn' hlt]
      · have hread := h a ha
        rwa [read_cons_other b m (by omega), read_cons_other b' n (by omega)] at hread

/-- Settles O39: every number below 65536 is the value of an address. -/
theorem canonicalMemoryIsUnique : Obligations.CanonicalMemoryIsUnique := by
  intro m n hm hn h
  refine eq_of_read_eq hm hn fun a ha => ?_
  have hread := h (BitVec.ofNat 16 a)
  rwa [BitVec.toNat_ofNat, Nat.mod_eq_of_lt ha] at hread

/-- Settles O40: memory reads 0x00 after reset, and that is no opcode of the table. -/
theorem unloadedCoreFaults : Obligations.UnloadedCoreFaults := by
  constructor
  · intro e he
    obtain ⟨hbuilt, -⟩ := constructionChecksEntry machineConfig e
    obtain ⟨k, hk, hentry, hconfig, hstate, -⟩ := hbuilt he
    refine ⟨k, hk, hentry, ?_⟩
    have hopcode : readByte k.state k.state.pc = 0x00#8 := by rw [hstate, readByte_resetOf]
    have hpc : k.state.pc = k.config.entry := by rw [hstate]; rfl
    have hnone : k.config.opTable.lookup (readByte k.state k.state.pc) = none := by
      rw [hopcode, hconfig]; rfl
    rw [hostAct_step, tableStep_of_op_none hnone, hopcode, hpc, settleOutcome_fault]
  · exact step_of_not_mem_legalOpcodes (by decide)

/-- Settles O41: the host finds the state as it was, so the repeated step is the same step. -/
theorem faultIsPreciseAndRepeats : Obligations.FaultIsPreciseAndRepeats := by
  intro c s f h
  rw [hostAct_step] at h
  obtain ⟨hfault, hstate⟩ := settleOutcome_faulted h
  refine ⟨hstate, ?_, tableStep_fault hfault⟩
  rw [hostAct_step c s, hstate, hostAct_step, hfault, settleOutcome_fault]

/-- The host's write of a byte is a write to memory (R220). -/
theorem hostAct_setMem (c : Config) (a : Addr) (v : Byte) (s : State) :
    hostAct c (.setMem a v) s = (writeByte s a v, .done) := rfl

/-- Settles O43: a read after the write, at the same address and at another. -/
theorem hostWriteByte : Obligations.HostWriteByte := by
  intro c a v s hwf
  rw [hostAct_setMem]
  exact ⟨Memory.read_write_same _ v hwf,
    fun b hb => Memory.read_write_other _ v fun h => hb (BitVec.toNat_inj.mp h), rfl⟩

/-- Settles O44: each write replaces one field, and a flag's write one bit of P by `writeFlag_bit`. -/
theorem hostRegisterWrites : Obligations.HostRegisterWrites := fun _ s _ _ f b =>
  ⟨rfl, rfl, rfl, rfl, rfl, rfl, rfl, writeFlag_bit s.p f b⟩

end Sys2Proof.Proofs.HostActions

/-! The addressing-mode resolver (spec/41_addressing_modes.md): the address each mode reads as a number, what it yields, its page report and its reads. -/

namespace Sys2Proof.Proofs.Resolver

open Sys2Proof.Machine Sys2Proof.Claims Sys2Proof.Proofs.ProgramCounter

theorem readByte_eq_byteAt (s : State) (a : Addr) : readByte s a = byteAt s a.toNat := rfl

/-- The address after the opcode byte wraps at the top of memory (R81). -/
@[simp] theorem pc1_toNat (s : State) : (pc1 s).toNat = (s.pc.toNat + 1) % 65536 :=
  BitVec.toNat_add _ _

/-- An absolute address and its index sum modulo 65536 (R109, R110). -/
@[simp] theorem add_zext16_toNat (a : Addr) (index : Byte) :
    (a + zext16 index).toNat = (a.toNat + index.toNat) % 65536 := by
  rw [BitVec.toNat_add, zext16_toNat]

/-- A little-endian word, the address of its high byte wrapping (R44). -/
@[simp] theorem readWord_toNat (s : State) (a : Addr) : (readWord s a).toNat =
    (byteAt s a.toNat).toNat + 256 * (byteAt s ((a.toNat + 1) % 65536)).toNat := by
  rw [readWord, joinBytes_toNat, readByte_eq_byteAt, readByte_eq_byteAt, BitVec.toNat_add]
  rfl

/-- The zero-page index sum leaves the page under REFERENCE and stays in it under CORRECTED (R106, R107). -/
@[simp] theorem zeroPageIndexed_toNat (prof : Profile) (b0 index : Byte) :
    (zeroPageIndexed prof b0 index).toNat =
      if prof = .reference then b0.toNat + index.toNat else (b0.toNat + index.toNat) % 256 := by
  have := b0.isLt
  have := index.isLt
  cases prof with
  | reference =>
    rw [zeroPageIndexed, add_zext16_toNat, zext16_toNat, if_pos rfl]
    omega
  | corrected => rw [zeroPageIndexed, zext16_toNat, BitVec.toNat_add, if_neg (by decide)]

/-- A pointer in the zero page, the address of its high byte wrapping within the page (R111, R112). -/
@[simp] theorem zeroPagePointer_toNat (s : State) (p : Byte) : (zeroPagePointer s p).toNat =
    (byteAt s p.toNat).toNat + 256 * (byteAt s ((p.toNat + 1) % 256)).toNat := by
  rw [zeroPagePointer, joinBytes_toNat, readByte_eq_byteAt, readByte_eq_byteAt, zext16_toNat,
    zext16_toNat, BitVec.toNat_add]
  rfl

/-- The page report from the address after the opcode byte (R100). -/
@[simp] theorem crossedPage_pc1 (s : State) (n : Nat) :
    crossedPage (pc1 s) n = decide (256 ≤ (s.pc.toNat + 1) % 65536 % 256 + n) := by
  rw [crossedPage, pc1_toNat]

/-- Settles O29: each mode reads the byte at the address its rule gives, as a number. -/
theorem resolverDirectModes : Obligations.ResolverDirectModes := by
  intro prof s p1 b0 ea one two
  refine ⟨rfl, rfl, ?_, ?_, ?_, ?_, ?_, ?_⟩
  · simp [resolve, resolveImm, readByte_eq_byteAt, p1, one]
  · simp [resolve, resolveZp, readByte_eq_byteAt, p1, b0, one]
  · simp [resolve, resolveAbs, readByte_eq_byteAt, p1, b0, ea, two]
  · simp [resolve, resolveAbx, readByte_eq_byteAt, p1, b0, ea, two]
  · simp [resolve, resolveAby, readByte_eq_byteAt, p1, b0, ea, two]
  · simp [resolve, resolveRel, readByte_eq_byteAt, p1]

/-- Settles O30: the datum is read at the profile's index sum. -/
theorem resolverZeroPageIndexed : Obligations.ResolverZeroPageIndexed := by
  intro s p1 b0 one
  simp [resolve, resolveZpx, resolveZpy, readByte_eq_byteAt, p1, b0, one]

/-- Settles O31: REFERENCE hands the open function the operand byte, CORRECTED reads through a zero-page pointer. -/
theorem resolverIndirectModes : Obligations.ResolverIndirectModes := by
  intro s p1 b0 one p px py
  refine ⟨?_, ?_, ?_, ?_⟩
  · simp [resolve, resolveInx, operandInx, readByte_eq_byteAt s (pc1 s), p1, b0, one]
  · simp [resolve, resolveIny, operandIny, readByte_eq_byteAt s (pc1 s), p1, b0, one]
  · simp [resolve, resolveInx, operandInx, readByte_eq_byteAt, p1, b0, one, p, px]
  · simp [resolve, resolveIny, operandIny, readByte_eq_byteAt, p1, b0, one, py]

/-- A mode that checks reports whether its operand bytes run into the next page (R100, R102 to R113). -/
theorem resolve_crossed (prof : Profile) (mode : Mode) (s : State) :
    (resolve prof mode s).crossed = (modeChecks mode && crossedPage (pc1 s) (modeWidth mode)) := by
  cases mode <;> rfl

/-- The page of an address (R8). -/
theorem highByte_toNat (a : Addr) : (highByte a).toNat = a.toNat / 256 := by
  have := a.isLt
  rw [highByte, BitVec.extractLsb'_toNat, Nat.shiftRight_eq_div_pow]
  omega

/-- The offset of an address in its page (R8). -/
theorem lowByte_toNat (a : Addr) : (lowByte a).toNat = a.toNat % 256 := by
  rw [lowByte, BitVec.extractLsb'_toNat, Nat.shiftRight_zero]

/-- Up to a page away, the report holds exactly when the address that far on lies in another page (R100). -/
theorem crossedPage_iff_highByte_ne (a : Addr) {n : Nat} (hn : n < 256) :
    crossedPage a n = true ↔ highByte (a + BitVec.ofNat 16 n) ≠ highByte a := by
  have := a.isLt
  rw [crossedPage_iff, ne_eq, ← BitVec.toNat_inj, highByte_toNat, highByte_toNat, BitVec.toNat_add,
    BitVec.toNat_ofNat]
  omega

/-- Settles O32: the report is the mode's check, and it means the next page by `crossedPage_iff_highByte_ne`. -/
theorem pageReportMeansNextPage : Obligations.PageReportMeansNextPage := by
  refine ⟨fun prof mode s => ⟨resolve_n prof mode s, ?_⟩, fun a => ⟨?_, ?_, ?_, ?_⟩⟩
  · have hmod : (s.pc.toNat + 1) % 65536 % 256 = (s.pc.toNat + 1) % 256 :=
      Nat.mod_mod_of_dvd _ (by decide)
    rw [resolve_crossed, Bool.and_eq_true, crossedPage_iff, pc1_toNat, hmod]
  · exact crossedPage_iff_highByte_ne a (by decide)
  · exact crossedPage_iff_highByte_ne a (by decide)
  · rw [crossedPage_iff, ← BitVec.toNat_inj, lowByte_toNat, BitVec.toNat_ofNat]
    omega
  · rw [crossedPage_iff, ← BitVec.toNat_inj, ← BitVec.toNat_inj, lowByte_toNat,
      BitVec.toNat_ofNat, BitVec.toNat_ofNat]
    omega

/-- The resolver's reads are those of the mode, as numbers (R48). -/
theorem resolveReads_toNat (prof : Profile) (mode : Mode) (s : State) :
    (resolveReads prof mode s).map BitVec.toNat = modeReads prof mode s := by
  cases mode <;> cases prof <;>
    simp [resolveReads, modeReads, readByte_eq_byteAt s (pc1 s)]

/-- Settles O33: the opcode byte, then the resolver's reads if both tables have the opcode. -/
theorem readsOfOneStep : Obligations.ReadsOfOneStep := by
  intro c s
  refine ⟨fun hnone => ?_, fun mode hop hmode => ?_⟩
  · rw [stepReads]
    rcases hnone with hop | hmode
    · rw [hop]
    · rw [hmode]
      cases c.opTable.lookup (readByte s s.pc) <;> rfl
  · obtain ⟨op, hop⟩ := Option.ne_none_iff_exists'.mp hop
    simp only [stepReads, hop, hmode, List.map_cons, resolveReads_toNat]

end Sys2Proof.Proofs.Resolver

/-! What each form of the opcode table does (spec/42_alu_operations.md, spec/43_branches.md): its operation's handler after the commit, on the byte its mode names and at its cost. -/

namespace Sys2Proof.Proofs.FormResults

open Sys2Proof.Machine Sys2Proof.Claims Sys2Proof.Proofs.FlagWrites Sys2Proof.Proofs.ProgramCounter
  Sys2Proof.Proofs.AluHandlers Sys2Proof.Proofs.StepTiming Sys2Proof.Proofs.InstructionRows
  Sys2Proof.Proofs.StepRefinement Sys2Proof.Proofs.StepFrame Sys2Proof.Proofs.Resolver

/-- The shift leaves in A twice A modulo 256 (R133). -/
theorem shiftLeft_a_toNat (prof : Profile) (k : Fin 8) (s : State) :
    (shiftLeft prof k s).a.toNat = 2 * s.a.toNat % 256 := by
  rw [shiftLeft, State.setP_a, State.setA_a, BitVec.toNat_shiftLeft, Nat.shiftLeft_eq, Nat.mul_comm]

/-- The shift leaves in C the configured bit of the old A (R133). -/
theorem shiftLeft_carry (prof : Profile) (k : Fin 8) (s : State) :
    (shiftLeft prof k s).flag .c = s.a.getLsbD k := by
  rw [shiftLeft, State.setP_flag, readFlag_setZN_c, readFlag_writeFlag_same]

/-- The handler of ASL meets R133. -/
theorem shiftLeft_shiftsAccumulator (prof : Profile) (k : Fin 8) (s : State) :
    ShiftsAccumulator prof k s (shiftLeft prof k s) :=
  ⟨shiftLeft_a_toNat prof k s, shiftLeft_carry prof k s, shiftLeft_flags prof k s⟩

/-- Settles O3: the handler runs `shiftLeft`, and no handler touches the rest. -/
theorem shiftHandlerBothProfiles : Obligations.ShiftHandlerBothProfiles := fun prof k m s =>
  have hrun : execute prof k .asl m s = .next (shiftLeft prof k s) := rfl
  ⟨_, hrun, shiftLeft_shiftsAccumulator prof k s, rfl, rfl, execute_sameRest hrun⟩

/-- A form whose handler moves neither PC nor CYC advances by its length and cost. -/
theorem runForm_of_handler {op : Operation} {r : Resolved} {base pen k : Nat} {s : State}
    {Effect : State → Prop} (hcost : cost base pen r.crossed = k)
    (h : let u := commit r.n (cost base pen r.crossed) s
      ∃ t, execute Params.profile Params.aslCarryBit op r.m u = .next t ∧ Effect t ∧
        t.pc = u.pc ∧ t.cyc = u.cyc ∧ SameRest u t) :
    ∃ t, runForm op r base pen s = .next t ∧ Effect t ∧ Advanced s t (1 + r.n) k ∧ SameRest s t := by
  obtain ⟨t, hrun, heffect, hpc, hcyc, hrest⟩ := h
  refine ⟨t, hrun, heffect, ⟨?_, ?_⟩, hrest⟩
  · rw [hpc, commit_pc_toNat, Nat.add_assoc]
  · rw [hcyc, commit_cyc, hcost]

theorem runForm_adcForm {r : Resolved} {m : Byte} {base pen k : Nat} (s : State)
    (hm : r.m = some m) (hcost : cost base pen r.crossed = k) :
    AdcForm s m (1 + r.n) k (runForm .adc r base pen s) :=
  runForm_of_handler hcost (hm ▸ addWithCarryHandler _ _ m _)

theorem runForm_andForm {r : Resolved} {m : Byte} {base pen k : Nat} (s : State)
    (hm : r.m = some m) (hcost : cost base pen r.crossed = k) :
    AndForm s m (1 + r.n) k (runForm .and r base pen s) :=
  runForm_of_handler hcost (hm ▸ bitwiseAndHandler _ _ m _)

theorem runForm_aslForm {r : Resolved} {base : Nat} (s : State) :
    AslForm s (1 + r.n) base (runForm .asl r base 0 s) :=
  runForm_of_handler (cost_no_penalty _ _) (shiftHandlerBothProfiles _ _ r.m _)

theorem runForm_bitForm {r : Resolved} {m : Byte} {base : Nat} (s : State)
    (hm : r.m = some m) : BitForm s m (1 + r.n) base (runForm .bit r base 0 s) :=
  runForm_of_handler (cost_no_penalty _ _) (hm ▸ bitTestHandler.1 _ _ m _)

theorem resolveZp_m (b0 : Byte) (s : State) :
    (resolveZp b0 s).m = some (byteAt s b0.toNat) := by
  simp [resolveZp, readByte_eq_byteAt]

theorem resolveZpx_m (b0 : Byte) (s : State) :
    (resolveZpx Params.profile b0 s).m = some (byteAt s (b0.toNat + s.x.toNat)) := by
  simp [resolveZpx, readByte_eq_byteAt, Params.profile]

theorem resolveAbs_m (addr : Addr) (s : State) :
    (resolveAbs addr s).m = some (byteAt s addr.toNat) := rfl

theorem resolveAbx_m (addr : Addr) (s : State) :
    (resolveAbx addr s).m = some (byteAt s ((addr.toNat + s.x.toNat) % 65536)) := by
  simp [resolveAbx, readByte_eq_byteAt]

theorem resolveAby_m (addr : Addr) (s : State) :
    (resolveAby addr s).m = some (byteAt s ((addr.toNat + s.y.toNat) % 65536)) := by
  simp [resolveAby, readByte_eq_byteAt]

/-- The report of R100 on the number of PC. -/
theorem crossedPage_pc1_iff (s : State) (n : Nat) :
    crossedPage (pc1 s) n = true ↔ 256 ≤ (s.pc.toNat + 1) % 256 + n := by
  rw [crossedPage_iff, pc1_toNat, Nat.mod_mod_of_dvd _ (by decide)]

/-- A timing entry with a penalty of 1 charges the penalty cycle of R194. -/
theorem cost_one (base n : Nat) (s : State) :
    cost base 1 (crossedPage (pc1 s) n) = base + pagePenalty s n := by
  simp only [cost, pagePenalty, crossedPage_pc1_iff]

/-- Settles O9: ADC on the byte each mode names. -/
theorem adcDirectFormsResult : Obligations.AdcDirectFormsResult := fun s b addr =>
  ⟨runForm_adcForm (r := resolveImm b s) s rfl (cost_no_penalty _ _),
    runForm_adcForm s (resolveZp_m b s) (cost_no_penalty _ _),
    runForm_adcForm s (resolveZpx_m b s) (cost_no_penalty _ _),
    runForm_adcForm s (resolveAbs_m addr s) (cost_no_penalty _ _),
    runForm_adcForm s (resolveAbx_m addr s) (cost_one 4 2 s),
    runForm_adcForm s (resolveAby_m addr s) (cost_one 4 2 s)⟩

/-- Settles O10: ADC on the byte of the open function. -/
theorem adcIndirectFormsResult : Obligations.AdcIndirectFormsResult := fun s b =>
  ⟨runForm_adcForm (r := resolveInx Params.profile b s) s rfl (cost_no_penalty _ _),
    runForm_adcForm (r := resolveIny Params.profile b s) s rfl (cost_one 5 1 s)⟩

/-- Settles O11: AND on the byte each mode names. -/
theorem andDirectFormsResult : Obligations.AndDirectFormsResult := fun s b addr =>
  ⟨runForm_andForm (r := resolveImm b s) s rfl (cost_no_penalty _ _),
    runForm_andForm s (resolveZp_m b s) (cost_no_penalty _ _),
    runForm_andForm s (resolveZpx_m b s) (cost_no_penalty _ _),
    runForm_andForm s (resolveAbs_m addr s) (cost_no_penalty _ _),
    runForm_andForm s (resolveAbx_m addr s) (cost_one 4 2 s),
    runForm_andForm s (resolveAby_m addr s) (cost_one 4 2 s)⟩

/-- Settles O12: AND on the byte of the open function. -/
theorem andIndirectFormsResult : Obligations.AndIndirectFormsResult := fun s b =>
  ⟨runForm_andForm (r := resolveInx Params.profile b s) s rfl (cost_no_penalty _ _),
    runForm_andForm (r := resolveIny Params.profile b s) s rfl (cost_one 5 1 s)⟩

/-- Settles O13: the five forms run one handler, which takes nothing from the datum. -/
theorem aslFormsResult : Obligations.AslFormsResult := fun s b addr =>
  ⟨runForm_aslForm (r := resolveAcc s) s, runForm_aslForm (r := resolveZp b s) s,
    runForm_aslForm (r := resolveZpx Params.profile b s) s,
    runForm_aslForm (r := resolveAbs addr s) s, runForm_aslForm (r := resolveAbx addr s) s⟩

/-- Settles O14: BIT on the byte at the address. -/
theorem bitFormsResult : Obligations.BitFormsResult := fun s b addr =>
  ⟨runForm_bitForm s (resolveZp_m b s), runForm_bitForm s (resolveAbs_m addr s)⟩

/-- Settles O15: NOP is the no-operation of R135 in the implied mode at a base of 2. -/
theorem nopResult : Obligations.NopResult := fun s =>
  noOperationOnlyAdvances Params.profile Params.aslCarryBit 2 0 s

/-- The handler of a branch that has its byte runs `branchIf` on its condition (R171 to R179). -/
theorem execute_branch {op : Operation} (hop : op ∈ branchOperations) (prof : Profile) (k : Fin 8)
    (m : Byte) (s : State) :
    execute prof k op (some m) s = .next (branchIf prof (branchTaken op s) m s) := by
  fin_cases hop <;> rfl

/-- A branch moves PC by its displacement if its condition holds, modulo 65536 (R171, R43). -/
theorem branchIf_pc_toNat (prof : Profile) (cond : Bool) (m : Byte) (s : State) :
    ((branchIf prof cond m s).pc.toNat : Int) =
      ((s.pc.toNat : Int) + (if cond then signedDisplacement prof m else 0)) % 65536 := by
  have := s.pc.isLt
  cases cond with
  | true => rw [branchIf_pc_taken, if_pos rfl]
  | false =>
    rw [branchIf_pc_untaken, if_neg (by decide)]
    omega

/-- A branch completes, taken or not: PC past it and then its displacement on, at the base cost (R171, R195). -/
theorem complete_branch {op : Operation} (hop : op ∈ branchOperations) (prof : Profile) (k : Fin 8)
    (m : Byte) (base pen : Nat) (s : State) :
    ∃ t, complete prof k op (resolveRel m) base pen s = .next t ∧ OnlyControl s t ∧
      t.cyc = s.cyc + base ∧ (t.pc.toNat : Int) = ((s.pc.toNat : Int) + 2 +
        (if branchTaken op s then signedDisplacement prof m else 0)) % 65536 := by
  have hrun := execute_branch hop prof k m (commit 1 (cost base pen false) s)
  rw [branchTaken_commit] at hrun
  obtain ⟨ha, hp⟩ := branchIf_flags prof (branchTaken op s) m (commit 1 (cost base pen false) s)
  refine ⟨_, hrun, ⟨ha, hp, complete_sameRest (r := resolveRel m) hrun⟩,
    complete_cyc (r := resolveRel m) (pen := pen) hrun, ?_⟩
  rw [branchIf_pc_toNat, commit_pc_toNat]
  push_cast
  rw [Int.emod_add_emod, add_assoc (s.pc.toNat : Int)]
  rfl

/-- Settles O7: in the relative mode the operand is the byte after the opcode. -/
theorem branchOperationBothProfiles : Obligations.BranchOperationBothProfiles := by
  intro prof k op base pen s hop
  rw [← pc1_toNat, ← readByte_eq_byteAt]
  exact complete_branch hop prof k (readByte s (pc1 s)) base pen s

/-- Settles O16: the eight conditions, under this core's profile and at a base of 2. -/
theorem branchFormsResult : Obligations.BranchFormsResult := by
  intro s m
  have hform {op : Operation} (hop : op ∈ branchOperations) :
      Branches (branchTaken op s) s m (runForm op (resolveRel m) 2 0 s) :=
    complete_branch hop Params.profile Params.aslCarryBit m 2 0 s
  exact ⟨hform (op := .bcc) (by decide), hform (op := .bcs) (by decide),
    hform (op := .beq) (by decide), hform (op := .bne) (by decide), hform (op := .bmi) (by decide),
    hform (op := .bpl) (by decide), hform (op := .bvc) (by decide), hform (op := .bvs) (by decide)⟩

/-- Settles O8: from 128 on the two readings are `128 - m` and `m - 256`, which meet at 192 only. -/
theorem displacementsAgreeExactly : Obligations.DisplacementsAgreeExactly := by
  intro m
  have := m.isLt
  rw [displacement_eq_signedDisplacement, displacement_eq_signedDisplacement, ← BitVec.toNat_inj]
  simp only [signedDisplacement, reduceCtorEq, if_true, if_false, BitVec.toNat_ofNat]
  split <;> omega

/-- Every form completes (R80): it has its byte if its operation needs one. -/
theorem exec_completes (i : Instr) (s : State) : ∃ t, exec i s = .next t := by
  obtain ⟨op, r, base, pen, hexec, hoperand⟩ := exec_eq_complete i s
  rw [hexec]
  exact execute_completes _ _ _ hoperand

/-- An instruction completes at the cost of its timing entry (R191). -/
theorem exec_costs (i : Instr) (s : State) :
    Costs i s (cost (timingOf i).base (timingOf i).pen (operandOf s i).crossed) := by
  obtain ⟨t, h⟩ := exec_completes i s
  refine ⟨t, h, ?_⟩
  rw [exec_eq_runForm] at h
  rw [complete_cyc h, cost, Nat.add_assoc]

theorem hasPenalty_eq (i : Instr) : hasPenalty i = decide ((timingOf i).pen ≠ 0) := by
  cases i <;> rfl

/-- Two operand bytes run into the next page from offset 0xFD or 0xFE of the opcode (R100, R194). -/
theorem cost_two_operand_bytes (s : State) : cost 4 1 (crossedPage (pc1 s) 2) =
    if s.pc.toNat % 256 = 0xFD ∨ s.pc.toNat % 256 = 0xFE then 5 else 4 := by
  rw [cost_one, pagePenalty]
  split_ifs <;> omega

/-- One operand byte runs into the next page from offset 0xFE of the opcode (R100, R194). -/
theorem cost_one_operand_byte (s : State) : cost 5 1 (crossedPage (pc1 s) 1) =
    if s.pc.toNat % 256 = 0xFE then 6 else 5 := by
  rw [cost_one, pagePenalty]
  split_ifs <;> omega

/-- Settles O55: the six forms with a penalty in their entry, and the others, whose cost is their base. -/
theorem penaltyByPlaceOfOpcode : Obligations.PenaltyByPlaceOfOpcode := by
  refine ⟨fun s addr b => ?_, fun i hi => ⟨(timingOf i).base, fun s => ?_⟩⟩
  · rw [← cost_two_operand_bytes, ← cost_one_operand_byte]
    exact ⟨exec_costs _ s, exec_costs _ s, exec_costs _ s, exec_costs _ s, exec_costs _ s,
      exec_costs _ s⟩
  · have hcosts := exec_costs i s
    rw [hasPenalty_eq, decide_eq_false_iff_not, not_not] at hi
    rwa [hi, cost_no_penalty] at hcosts

end Sys2Proof.Proofs.FormResults

/-! Where the two profiles give the same step (spec/00_scope.md R7, U1 of spec/93_implementation_defined.md). -/

namespace Sys2Proof.Proofs.ProfileAgreement

open Sys2Proof.Machine Sys2Proof.Claims Sys2Proof.Proofs.ProgramCounter
  Sys2Proof.Proofs.Resolver Sys2Proof.Proofs.FormResults

/-- A zero-page index sum that stays in the page is one address under both profiles (R106, R107). -/
theorem zeroPageIndexed_agree {b0 index : Byte} (h : b0.toNat + index.toNat < 256) :
    zeroPageIndexed .reference b0 index = zeroPageIndexed .corrected b0 index := by
  apply BitVec.toNat_inj.mp
  rw [zeroPageIndexed_toNat, zeroPageIndexed_toNat, if_pos rfl, if_neg (by decide),
    Nat.mod_eq_of_lt h]

/-- Outside the indirect modes and a sum that leaves the page, the resolver does not look at the profile. -/
theorem resolve_agree {mode : Mode} {s : State} (hinx : mode ≠ .inx) (hiny : mode ≠ .iny)
    (hzpx : mode = .zpx → (readByte s (pc1 s)).toNat + s.x.toNat < 256)
    (hzpy : mode = .zpy → (readByte s (pc1 s)).toNat + s.y.toNat < 256) :
    resolve .reference mode s = resolve .corrected mode s := by
  cases mode with
  | imp | acc | imm | zp | abs | abx | aby | rel => rfl
  | zpx => simp only [resolve, resolveZpx, zeroPageIndexed_agree (hzpx rfl)]
  | zpy => simp only [resolve, resolveZpy, zeroPageIndexed_agree (hzpy rfl)]
  | inx => exact absurd rfl hinx
  | iny => exact absurd rfl hiny

/-- A branch that is not taken, or whose byte both profiles read alike, ends in one state (R170, R171). -/
theorem branchIf_agree {cond : Bool} {m : Byte} (s : State)
    (h : cond = true → m.toNat < 128 ∨ m = 0xC0#8) :
    branchIf .reference cond m s = branchIf .corrected cond m s := by
  cases cond with
  | false => rfl
  | true => simp only [branchIf, (displacementsAgreeExactly m).mpr (h rfl)]

/-- Outside the shift and a taken branch whose byte they read differently, the handlers do not look at the profile. -/
theorem execute_agree {op : Operation} {m : Option Byte} {s : State} (k : Fin 8) (hop : op ≠ .asl)
    (hbranch : branchTaken op s = true → ∀ b, m = some b → b.toNat < 128 ∨ b = 0xC0#8) :
    execute .reference k op m s = execute .corrected k op m s := by
  cases m with
  | none =>
    cases op with
    | asl => exact absurd rfl hop
    | _ => rfl
  | some b =>
    cases op with
    | adc | and | bit | nop => rfl
    | asl => exact absurd rfl hop
    | bcc | bcs | beq | bne | bmi | bpl | bvc | bvs =>
      exact congrArg Host.Outcome.next (branchIf_agree s fun htaken => hbranch htaken b rfl)

/-- The two ends of the step agree when the resolvers do and the handlers do. -/
theorem complete_agree {op : Operation} {mode : Mode} {s : State} (k : Fin 8) (base pen : Nat)
    (hresolve : resolve .reference mode s = resolve .corrected mode s) (hop : op ≠ .asl)
    (hbranch : branchTaken op s = true →
      ∀ b, (resolve .reference mode s).m = some b → b.toNat < 128 ∨ b = 0xC0#8) :
    complete .reference k op (resolve .reference mode s) base pen s =
      complete .corrected k op (resolve .corrected mode s) base pen s := by
  rw [← hresolve]
  refine execute_agree k hop fun htaken => hbranch ?_
  rwa [branchTaken_commit] at htaken

/-- Settles O50: the lookups are the same, and the ends of the step agree. -/
theorem profilesAgreeOutsideFourPlaces : Obligations.ProfilesAgreeOutsideFourPlaces := by
  intro c s h
  simp only [tableStep]
  cases hop : c.opTable.lookup (readByte s s.pc) with
  | none => rfl
  | some op =>
    cases hmode : c.modeTable.lookup (readByte s s.pc) with
    | none => rfl
    | some mode =>
      obtain ⟨hasl, hinx, hiny, hzpx, hzpy, hbranch⟩ := h op mode hop hmode
      rw [← pc1_toNat, ← readByte_eq_byteAt] at hzpx hzpy
      have hresolve := resolve_agree hinx hiny hzpx hzpy
      cases c.timeTable.lookup (readByte s s.pc) with
      | none => rfl
      | some tm => exact complete_agree c.aslCarryBit tm.base tm.pen hresolve hasl hbranch

end Sys2Proof.Proofs.ProfileAgreement
